-- ==== Sys2Proof/Config.lean ====
section
/-! DEFINITION. What the spec fixes once for the machine, each under its own name (spec/00_scope.md R4), and the values it
leaves free (R5's `ON`, R6's inputs where the state holds no planned one, R20's key number above 15). The parameters of R5
that have a suggested default are the structure `Params` of Machine/Params.lean. -/

namespace Sys2Proof.Config

/-- `MEM_SIZE`: bytes in the Memory Image (R4). -/
def memSize : Nat := 4096

/-- `NREG`: general registers (R4). -/
abbrev numRegs : Nat := 16

/-- `XLEN`: width of a general register, bits (R4). -/
abbrev xlen : Nat := 8

/-- `I_BITS`: width of the index register (R4). -/
abbrev iBits : Nat := 16

/-- `PC_BITS`: width of the program counter (R4). -/
abbrev pcBits : Nat := 16

/-- Width of the stack pointer, which R4 does not list. DESIGN CHOICE: 16 bits (D6; assumption 12). -/
abbrev spBits : Nat := 16

/-- `TIMER_BITS`: width of each timer (R4). -/
abbrev timerBits : Nat := 8

/-- `DISP_W`: display columns (R4). -/
def dispW : Nat := 64

/-- `DISP_H`: display rows (R4). -/
def dispH : Nat := 32

/-- `DISP_CELLS`: cells of the Display Surface, `DISP_W · DISP_H` (R4). -/
def dispCells : Nat := dispW * dispH

/-- `CELL_BITS`: width of a display cell (R4). -/
abbrev cellBits : Nat := 16

/-- `NKEYS`: key slots (R4). -/
abbrev numKeys : Nat := 16

/-- `FONT_GLYPHS`: glyphs in the font table (R4). -/
abbrev fontGlyphs : Nat := 16

/-- `GLYPH_BYTES`: bytes per font glyph (R4). -/
abbrev glyphBytes : Nat := 5

/-- `FONT_BYTES`: bytes in the font table, `FONT_GLYPHS · GLYPH_BYTES` (R4). -/
abbrev fontBytes : Nat := fontGlyphs * glyphBytes

/-- `ILEN`: bytes per instruction (R4). -/
abbrev ilen : Nat := 2

/-- FREE VALUE (R5, D7; assumption 2). Which of the `2 ^ CELL_BITS − 1` non-zero cell values the lit-pixel pattern `ON` is. -/
opaque onIndex : Fin (2 ^ cellBits - 2 + 1)

/-- FREE VALUE (R6, R21, D10; assumption 3). The random byte of the step whose number is the argument. -/
opaque randomByte : Nat → BitVec 8

/-- FREE VALUE (R6, R20, R42; assumption 4). The slot the second argument names, as the host left it before the step
whose number is the first argument. -/
opaque hostKey : Nat → Nat → BitVec 8

/-- FREE VALUE (R20, D9; assumption 5). `Pressed(k)` for a `k` above 15, drawn anew at each step (first argument: the
step's number). -/
opaque pressedBeyond : Nat → BitVec xlen → Bool

/-- `ON` (R5, R17): a 16-bit value that is not 0, otherwise unconstrained. -/
def on : BitVec cellBits := BitVec.ofNat cellBits (onIndex.val + 1)

end Sys2Proof.Config
end

