-- ==== Sys2Proof/Word.lean ====
section
/-! DEFINITION. The word types of the engine: what spec/00_scope.md R4 and spec/30_encoding.md R51 treat as bits. -/

namespace Sys2Proof

/-- A 4-bit field of an instruction word (R51: `op`, `x`, `y`, `n`). -/
abbrev Nibble := BitVec 4

/-- A byte of the Memory Image (R16), a key slot (R20), the random byte (R21), an immediate `nn` (R51). -/
abbrev Byte := BitVec 8

/-- A 12-bit address operand `nnn` (R51, R53). -/
abbrev Addr := BitVec 12

/-- An instruction word (R50). -/
abbrev Word := BitVec 16

/-- A general register's number, 0 to 15 (R10, R53). -/
abbrev Reg := BitVec 4

/-- What a general register holds (R10). -/
abbrev RegByte := BitVec Config.xlen

/-- What the index register holds (R12). -/
abbrev IndexWord := BitVec Config.iBits

/-- What the program counter holds (R13). -/
abbrev PcWord := BitVec Config.pcBits

/-- What the stack pointer holds (R14, D6). -/
abbrev SpWord := BitVec Config.spBits

/-- What a timer holds (R15). -/
abbrev TimerByte := BitVec Config.timerBits

/-- What a display cell holds (R17). -/
abbrev CellWord := BitVec Config.cellBits

/-- The Keypad State of one step: the key slots, slot `k` at index `k` (R20). -/
abbrev Keypad := Vector Byte Config.numKeys

end Sys2Proof
end

