-- ==== Sys2Proof/Syntax.lean ====
section
/-! DEFINITION. The instructions: one constructor per row of spec/opcode_table.json (spec/30_encoding.md R54, and the
catch-all row of R64). -/

namespace Sys2Proof

/-- The instruction set (R54). `x` and `y` are register numbers, `nn` an immediate byte, `nnn` an address, `n` a row
count (R51, R53). -/
inductive Instr where
  /-- 00E0 `CLS` (R110). -/
  | cls
  /-- 00EE `RET` (R70). -/
  | ret
  /-- 1NNN `JP nnn` (R71). -/
  | jp (nnn : Addr)
  /-- 2NNN `CALL nnn` (R72). -/
  | call (nnn : Addr)
  /-- 3XNN `SE Vx, nn` (R73). -/
  | seImm (x : Reg) (nn : Byte)
  /-- 4XNN `SNE Vx, nn` (R74). -/
  | sneImm (x : Reg) (nn : Byte)
  /-- 5XY0 `SE Vx, Vy` (R75). -/
  | seReg (x y : Reg)
  /-- 9XY0 `SNE Vx, Vy` (R76). -/
  | sneReg (x y : Reg)
  /-- 6XNN `LD Vx, nn` (R80). -/
  | ldImm (x : Reg) (nn : Byte)
  /-- 7XNN `ADD Vx, nn` (R81). -/
  | addImm (x : Reg) (nn : Byte)
  /-- 8XY0 `LD Vx, Vy` (R82). -/
  | ldReg (x y : Reg)
  /-- 8XY1 `OR Vx, Vy` (R83). -/
  | orReg (x y : Reg)
  /-- 8XY2 `AND Vx, Vy` (R84). -/
  | andReg (x y : Reg)
  /-- 8XY3 `XOR Vx, Vy` (R85). -/
  | xorReg (x y : Reg)
  /-- 8XY4 `ADD Vx, Vy` (R86). -/
  | addReg (x y : Reg)
  /-- 8XY5 `SUB Vx, Vy` (R87). -/
  | subReg (x y : Reg)
  /-- 8XY6 `SHR Vx` (R88): the `y` digit is in the encoding and ignored by the hardware. -/
  | shr (x y : Reg)
  /-- 8XY7 `SUBN Vx, Vy` (R89). -/
  | subnReg (x y : Reg)
  /-- 8XYE `SHL Vx` (R90): the `y` digit is in the encoding and ignored by the hardware. -/
  | shl (x y : Reg)
  /-- ANNN `LD I, nnn` (R101). -/
  | ldI (nnn : Addr)
  /-- BNNN `JP V0, nnn` (R77). -/
  | jpV0 (nnn : Addr)
  /-- CXNN `RND Vx, nn` (R91). -/
  | rnd (x : Reg) (nn : Byte)
  /-- DXYN `DRW Vx, Vy, n` (R112). -/
  | drw (x y : Reg) (n : Nibble)
  /-- EX9E `SKP Vx` (R120). -/
  | skp (x : Reg)
  /-- EXA1 `SKNP Vx` (R121). -/
  | sknp (x : Reg)
  /-- FX07 `LD Vx, DT` (R123). -/
  | ldVxDt (x : Reg)
  /-- FX15 `LD DT, Vx` (R124). -/
  | ldDtVx (x : Reg)
  /-- FX18 `LD ST, Vx` (R125). -/
  | ldStVx (x : Reg)
  /-- FX1E `ADD I, Vx` (R102). -/
  | addI (x : Reg)
  /-- FX29 `LD F, Vx` (R103). -/
  | ldF (x : Reg)
  /-- FX33 `LD B, Vx` (R104). -/
  | ldB (x : Reg)
  /-- FX55 `LD [I], Vx` (R105). -/
  | storeRegs (x : Reg)
  /-- FX65 `LD Vx, [I]` (R106). -/
  | loadRegs (x : Reg)
  /-- FX0A `LD Vx, K` (R122). -/
  | ldVxK (x : Reg)
  /-- Any word that matches no row of R54 (R64); the word is kept, so that encoding gives it back. -/
  | nop (w : Word)
deriving DecidableEq, Repr

end Sys2Proof
end

