-- ==== Sys2Proof/WellFormed.lean ====
section
/-! DEFINITION. Well-formed instructions: every operand of every row takes all the values of its field (spec/30_encoding.md
R53, R57), so the one check is that a no-op's word is one of the unmatched words of R56. -/

namespace Sys2Proof

/-- The words of R56's table, family by family: those that match no row of R54. -/
def unmatchedWord (w : Word) : Bool :=
  let x := w.extractLsb' 8 4
  let n := w.extractLsb' 0 4
  let nn := w.extractLsb' 0 8
  match w.extractLsb' 12 4 with
  | 0x0#4 => !(x == 0x0#4 && (nn == 0xE0#8 || nn == 0xEE#8))
  | 0x5#4 => !(n == 0x0#4)
  | 0x8#4 => n == 0x8#4 || n == 0x9#4 || n == 0xA#4 || n == 0xB#4 || n == 0xC#4 || n == 0xD#4 || n == 0xF#4
  | 0x9#4 => !(n == 0x0#4)
  | 0xE#4 => !(nn == 0x9E#8 || nn == 0xA1#8)
  | 0xF#4 => !(nn == 0x07#8 || nn == 0x0A#8 || nn == 0x15#8 || nn == 0x18#8 || nn == 0x1E#8 || nn == 0x29#8 ||
      nn == 0x33#8 || nn == 0x55#8 || nn == 0x65#8)
  | _ => false

/-- An instruction as the encoding admits it (R53, R56, R57). -/
def Instr.wellFormed : Instr → Bool
  | .cls => true
  | .ret => true
  | .jp _ => true
  | .call _ => true
  | .seImm _ _ => true
  | .sneImm _ _ => true
  | .seReg _ _ => true
  | .sneReg _ _ => true
  | .ldImm _ _ => true
  | .addImm _ _ => true
  | .ldReg _ _ => true
  | .orReg _ _ => true
  | .andReg _ _ => true
  | .xorReg _ _ => true
  | .addReg _ _ => true
  | .subReg _ _ => true
  | .shr _ _ => true
  | .subnReg _ _ => true
  | .shl _ _ => true
  | .ldI _ => true
  | .jpV0 _ => true
  | .rnd _ _ => true
  | .drw _ _ _ => true
  | .skp _ => true
  | .sknp _ => true
  | .ldVxDt _ => true
  | .ldDtVx _ => true
  | .ldStVx _ => true
  | .addI _ => true
  | .ldF _ => true
  | .ldB _ => true
  | .storeRegs _ => true
  | .loadRegs _ => true
  | .ldVxK _ => true
  | .nop w => unmatchedWord w

end Sys2Proof
end

