-- ==== Sys2Proof/Decode.lean ====
section
/-! DEFINITION. Decoding and encoding (spec/30_encoding.md R50 to R56): the fields of a word, the decoder the machine
uses, the mask and match table of R54 as the spec prints it, the encoder, and the byte level. -/

namespace Sys2Proof

/-- `op = W[15:12]` (R51). -/
def opField (w : Word) : Nibble := w.extractLsb' 12 4

/-- `x = W[11:8]` (R51). -/
def xField (w : Word) : Reg := w.extractLsb' 8 4

/-- `y = W[7:4]` (R51). -/
def yField (w : Word) : Reg := w.extractLsb' 4 4

/-- `n = W[3:0]` (R51). -/
def nField (w : Word) : Nibble := w.extractLsb' 0 4

/-- `nn = W[7:0]` (R51). -/
def nnField (w : Word) : Byte := w.extractLsb' 0 8

/-- `nnn = W[11:0]` (R51). -/
def nnnField (w : Word) : Addr := w.extractLsb' 0 12

/-- Family 0: 00E0 and 00EE on all 16 bits, every other word a no-op (R54 to R56, D12). -/
def decodeFamily0 (w : Word) : Instr :=
  if w = 0x00E0#16 then .cls else if w = 0x00EE#16 then .ret else .nop w

/-- Family 8: the low digit is the sub-opcode (R54). -/
def decodeFamily8 (w : Word) : Instr :=
  match nField w with
  | 0x0#4 => .ldReg (xField w) (yField w)
  | 0x1#4 => .orReg (xField w) (yField w)
  | 0x2#4 => .andReg (xField w) (yField w)
  | 0x3#4 => .xorReg (xField w) (yField w)
  | 0x4#4 => .addReg (xField w) (yField w)
  | 0x5#4 => .subReg (xField w) (yField w)
  | 0x6#4 => .shr (xField w) (yField w)
  | 0x7#4 => .subnReg (xField w) (yField w)
  | 0xE#4 => .shl (xField w) (yField w)
  | _ => .nop w

/-- Family E: the low byte is the sub-opcode (R54). -/
def decodeFamilyE (w : Word) : Instr :=
  match nnField w with
  | 0x9E#8 => .skp (xField w)
  | 0xA1#8 => .sknp (xField w)
  | _ => .nop w

/-- Family F: the low byte is the sub-opcode (R54). -/
def decodeFamilyF (w : Word) : Instr :=
  match nnField w with
  | 0x07#8 => .ldVxDt (xField w)
  | 0x0A#8 => .ldVxK (xField w)
  | 0x15#8 => .ldDtVx (xField w)
  | 0x18#8 => .ldStVx (xField w)
  | 0x1E#8 => .addI (xField w)
  | 0x29#8 => .ldF (xField w)
  | 0x33#8 => .ldB (xField w)
  | 0x55#8 => .storeRegs (xField w)
  | 0x65#8 => .loadRegs (xField w)
  | _ => .nop w

/-- The decoder (R63): the top four bits select the family; a word that matches no row is the no-op, so every word
decodes. -/
def decode (w : Word) : Instr :=
  match opField w with
  | 0x0#4 => decodeFamily0 w
  | 0x1#4 => .jp (nnnField w)
  | 0x2#4 => .call (nnnField w)
  | 0x3#4 => .seImm (xField w) (nnField w)
  | 0x4#4 => .sneImm (xField w) (nnField w)
  | 0x5#4 => if nField w = 0x0#4 then .seReg (xField w) (yField w) else .nop w
  | 0x6#4 => .ldImm (xField w) (nnField w)
  | 0x7#4 => .addImm (xField w) (nnField w)
  | 0x8#4 => decodeFamily8 w
  | 0x9#4 => if nField w = 0x0#4 then .sneReg (xField w) (yField w) else .nop w
  | 0xA#4 => .ldI (nnnField w)
  | 0xB#4 => .jpV0 (nnnField w)
  | 0xC#4 => .rnd (xField w) (nnField w)
  | 0xD#4 => .drw (xField w) (yField w) (nField w)
  | 0xE#4 => decodeFamilyE w
  | _ => decodeFamilyF w

/-- A word from its family and 12-bit operand: format `A` (R52). -/
def wordA (op : Nibble) (nnn : Addr) : Word := op ++ nnn

/-- A word from its family, register and low byte: formats `XI` and `X` (R52). -/
def wordXI (op : Nibble) (x : Reg) (nn : Byte) : Word := op ++ (x ++ nn : Addr)

/-- A word from its four digits: formats `XY` and `XYN` (R52). -/
def wordXYN (op : Nibble) (x y : Reg) (n : Nibble) : Word := op ++ (x ++ (y ++ n : Byte) : Addr)

/-- The word of an instruction, from R54's encoding strings. -/
def encode : Instr → Word
  | .cls => 0x00E0#16
  | .ret => 0x00EE#16
  | .jp nnn => wordA 0x1#4 nnn
  | .call nnn => wordA 0x2#4 nnn
  | .seImm x nn => wordXI 0x3#4 x nn
  | .sneImm x nn => wordXI 0x4#4 x nn
  | .seReg x y => wordXYN 0x5#4 x y 0x0#4
  | .sneReg x y => wordXYN 0x9#4 x y 0x0#4
  | .ldImm x nn => wordXI 0x6#4 x nn
  | .addImm x nn => wordXI 0x7#4 x nn
  | .ldReg x y => wordXYN 0x8#4 x y 0x0#4
  | .orReg x y => wordXYN 0x8#4 x y 0x1#4
  | .andReg x y => wordXYN 0x8#4 x y 0x2#4
  | .xorReg x y => wordXYN 0x8#4 x y 0x3#4
  | .addReg x y => wordXYN 0x8#4 x y 0x4#4
  | .subReg x y => wordXYN 0x8#4 x y 0x5#4
  | .shr x y => wordXYN 0x8#4 x y 0x6#4
  | .subnReg x y => wordXYN 0x8#4 x y 0x7#4
  | .shl x y => wordXYN 0x8#4 x y 0xE#4
  | .ldI nnn => wordA 0xA#4 nnn
  | .jpV0 nnn => wordA 0xB#4 nnn
  | .rnd x nn => wordXI 0xC#4 x nn
  | .drw x y n => wordXYN 0xD#4 x y n
  | .skp x => wordXI 0xE#4 x 0x9E#8
  | .sknp x => wordXI 0xE#4 x 0xA1#8
  | .ldVxDt x => wordXI 0xF#4 x 0x07#8
  | .ldDtVx x => wordXI 0xF#4 x 0x15#8
  | .ldStVx x => wordXI 0xF#4 x 0x18#8
  | .addI x => wordXI 0xF#4 x 0x1E#8
  | .ldF x => wordXI 0xF#4 x 0x29#8
  | .ldB x => wordXI 0xF#4 x 0x33#8
  | .storeRegs x => wordXI 0xF#4 x 0x55#8
  | .loadRegs x => wordXI 0xF#4 x 0x65#8
  | .ldVxK x => wordXI 0xF#4 x 0x0A#8
  | .nop w => w

/-- One row of R54's opcode map: a word is this instruction if and only if `W AND mask = pattern` (the spec's `match`);
`build` reads the operand fields of R51. -/
structure OpcodeRow where
  mask : Word
  pattern : Word
  build : Word → Instr

/-- Rows 1 to 10 of R54. -/
def opcodeRowsControl : List OpcodeRow :=
  [⟨0xFFFF, 0x00E0, fun _ => .cls⟩,
   ⟨0xFFFF, 0x00EE, fun _ => .ret⟩,
   ⟨0xF000, 0x1000, fun w => .jp (nnnField w)⟩,
   ⟨0xF000, 0x2000, fun w => .call (nnnField w)⟩,
   ⟨0xF000, 0x3000, fun w => .seImm (xField w) (nnField w)⟩,
   ⟨0xF000, 0x4000, fun w => .sneImm (xField w) (nnField w)⟩,
   ⟨0xF00F, 0x5000, fun w => .seReg (xField w) (yField w)⟩,
   ⟨0xF00F, 0x9000, fun w => .sneReg (xField w) (yField w)⟩,
   ⟨0xF000, 0x6000, fun w => .ldImm (xField w) (nnField w)⟩,
   ⟨0xF000, 0x7000, fun w => .addImm (xField w) (nnField w)⟩]

/-- Rows 11 to 19 of R54. -/
def opcodeRowsAlu : List OpcodeRow :=
  [⟨0xF00F, 0x8000, fun w => .ldReg (xField w) (yField w)⟩,
   ⟨0xF00F, 0x8001, fun w => .orReg (xField w) (yField w)⟩,
   ⟨0xF00F, 0x8002, fun w => .andReg (xField w) (yField w)⟩,
   ⟨0xF00F, 0x8003, fun w => .xorReg (xField w) (yField w)⟩,
   ⟨0xF00F, 0x8004, fun w => .addReg (xField w) (yField w)⟩,
   ⟨0xF00F, 0x8005, fun w => .subReg (xField w) (yField w)⟩,
   ⟨0xF00F, 0x8006, fun w => .shr (xField w) (yField w)⟩,
   ⟨0xF00F, 0x8007, fun w => .subnReg (xField w) (yField w)⟩,
   ⟨0xF00F, 0x800E, fun w => .shl (xField w) (yField w)⟩]

/-- Rows 20 to 25 of R54. -/
def opcodeRowsMiddle : List OpcodeRow :=
  [⟨0xF000, 0xA000, fun w => .ldI (nnnField w)⟩,
   ⟨0xF000, 0xB000, fun w => .jpV0 (nnnField w)⟩,
   ⟨0xF000, 0xC000, fun w => .rnd (xField w) (nnField w)⟩,
   ⟨0xF000, 0xD000, fun w => .drw (xField w) (yField w) (nField w)⟩,
   ⟨0xF0FF, 0xE09E, fun w => .skp (xField w)⟩,
   ⟨0xF0FF, 0xE0A1, fun w => .sknp (xField w)⟩]

/-- Rows 26 to 34 of R54. -/
def opcodeRowsF : List OpcodeRow :=
  [⟨0xF0FF, 0xF007, fun w => .ldVxDt (xField w)⟩,
   ⟨0xF0FF, 0xF015, fun w => .ldDtVx (xField w)⟩,
   ⟨0xF0FF, 0xF018, fun w => .ldStVx (xField w)⟩,
   ⟨0xF0FF, 0xF01E, fun w => .addI (xField w)⟩,
   ⟨0xF0FF, 0xF029, fun w => .ldF (xField w)⟩,
   ⟨0xF0FF, 0xF033, fun w => .ldB (xField w)⟩,
   ⟨0xF0FF, 0xF055, fun w => .storeRegs (xField w)⟩,
   ⟨0xF0FF, 0xF065, fun w => .loadRegs (xField w)⟩,
   ⟨0xF0FF, 0xF00A, fun w => .ldVxK (xField w)⟩]

/-- The 34 rows of R54, in the spec's order. -/
def opcodeRows : List OpcodeRow :=
  opcodeRowsControl ++ opcodeRowsAlu ++ opcodeRowsMiddle ++ opcodeRowsF

/-- The high byte of a word: the one at the lower address in memory (R33, R50). -/
def hiByte (w : Word) : Byte := w.extractLsb' 8 8

/-- The low byte of a word: the one at the higher address in memory (R33, R50). -/
def loByte (w : Word) : Byte := w.extractLsb' 0 8

/-- `b0 : b1`, the word of two bytes in address order (R33). -/
def wordOfBytes (b0 b1 : Byte) : Word := b0 ++ b1

/-- Why a list of bytes is no instruction. -/
inductive DecodeError where
  /-- Fewer than the two bytes of an instruction (R50). Raised by `decodeBytes` alone; a fetch always has both bytes.
  Safe. -/
  | needsTwoBytes
deriving DecidableEq, Repr

/-- The decoder on bytes in address order: the instruction and the bytes after it (R50). -/
def decodeBytes : List Byte → Except DecodeError (Instr × List Byte)
  | b0 :: b1 :: rest => .ok (decode (wordOfBytes b0 b1), rest)
  | _ => .error .needsTwoBytes

/-- The bytes of an instruction word as they lie in memory (R33). -/
def bytesOfWord (w : Word) : List Byte := [hiByte w, loByte w]

/-- The word of a table row whose low `nbits` bits are `w` (every bit above is 0). -/
def tableWord (nbits w : Nat) : Word := BitVec.ofNat 16 (w % 2 ^ nbits)

/-- The instruction the decoder reads from a table word, laid out in memory as R33 says. -/
def decodeTableWord (nbits w : Nat) : Option Instr :=
  match decodeBytes (bytesOfWord (tableWord nbits w)) with
  | .ok (i, _) => some i
  | .error _ => none

end Sys2Proof
end

