-- ==== Sys2Proof/Machine/Params.lean ====
section
/-! DEFINITION. The parameters that the source names and gives no value for (spec/00_scope.md R5), and the defaults the spec
suggests (spec/92_eei_decisions.md D3 to D5, D8; assumption 1). `ON` is `Config.on`, and `LEN` an argument of the host's
test (R154). -/

namespace Sys2Proof.Machine

/-- The parameters of R5, each with its constraint in its type. The machine's definitions take them from the state they
run on, which no step changes (R23; assumption 26). -/
structure Params where
  /-- `PROG_BASE` (R5, D3), below 4096: the reset value of `PC`, the loader's base, the base of the host's test. -/
  progBase : Fin Config.memSize
  /-- `FONT_BASE` (R5, D4), `FONT_BASE + 80 ≤ 4096`: where the font lies, and the base of FX29. -/
  fontBase : Fin (Config.memSize - Config.fontBytes + 1)
  /-- `FONT[0..79]` (R5, D4, R151). -/
  font : Vector Byte Config.fontBytes
  /-- `STACK_BASE` (R5, D5), below 4096: the reset value of `SP`. -/
  stackBase : Fin Config.memSize
  /-- `STACK_SIZE` (R5, D5): used by the diagnostics of R143 alone. -/
  stackSize : Nat
  /-- `KEY_DOWN` (R5, D8), not 0: what the host writes to the slot of a pressed key; no instruction tells it from another
  non-zero byte. -/
  keyDown : { b : Byte // b ≠ 0#8 }
deriving DecidableEq, Repr

/-- The glyphs of the digits 0 to 7 (spec/93_implementation_defined.md G1). -/
def fontLow : List Byte :=
  [0xF0, 0x90, 0x90, 0x90, 0xF0] ++ [0x20, 0x60, 0x20, 0x20, 0x70] ++
  [0xF0, 0x10, 0xF0, 0x80, 0xF0] ++ [0xF0, 0x10, 0xF0, 0x10, 0xF0] ++
  [0x90, 0x90, 0xF0, 0x10, 0x10] ++ [0xF0, 0x80, 0xF0, 0x10, 0xF0] ++
  [0xF0, 0x80, 0xF0, 0x90, 0xF0] ++ [0xF0, 0x10, 0x20, 0x40, 0x40]

/-- The glyphs of the digits 8 to F (spec/93_implementation_defined.md G1). -/
def fontHigh : List Byte :=
  [0xF0, 0x90, 0xF0, 0x90, 0xF0] ++ [0xF0, 0x90, 0xF0, 0x10, 0xF0] ++
  [0xF0, 0x90, 0xF0, 0x90, 0x90] ++ [0xE0, 0x90, 0xE0, 0x90, 0xE0] ++
  [0xF0, 0x80, 0x80, 0x80, 0xF0] ++ [0xE0, 0x90, 0x90, 0x90, 0xE0] ++
  [0xF0, 0x80, 0xF0, 0x80, 0xF0] ++ [0xF0, 0x80, 0xF0, 0x80, 0x80]

/-- The defaults that R5 suggests. PRESUMED: the spec takes them from general knowledge of CHIP-8 (assumption 1). They are
the parameters of `State.reset` and of the test vectors; the machine runs with any others as well. -/
def Params.suggested : Params where
  progBase := ⟨0x200, by decide⟩
  fontBase := ⟨0x050, by decide⟩
  font := ⟨(fontLow ++ fontHigh).toArray, by decide⟩
  stackBase := ⟨0xEA0, by decide⟩
  stackSize := 96
  keyDown := ⟨0xFF#8, by decide⟩

end Sys2Proof.Machine
end

