-- ==== Sys2Proof/Machine/State.lean ====
section
/-! DEFINITION. The engine's state (spec/10_state.md), its outcomes' reasons, and the state after reset (R24,
R150). -/

namespace Sys2Proof.Machine

/-- The Memory Image (R16): the bytes that differ from what an unlisted address reads as (`unlistedByte`), addresses
strictly rising. -/
abbrev Memory := List Host.Cell

/-- The Display Surface (R17): the numbers of the lit cells, strictly rising; every other cell holds 0 (R18 allows the
Boolean form; assumption 6). -/
abbrev Display := List Nat

/-- The state of the engine (R10 to R17), the inputs of the steps to come (R20, R21), the parameters the machine runs with
(R5, R23), and the model's step count. -/
structure State where
  /-- `V[0]` to `V[15]` (R10); `V[15]` is the flag register `VF` (R11). -/
  v : Vector RegByte Config.numRegs
  /-- The index register `I` (R12). -/
  i : IndexWord
  /-- The program counter `PC` (R13). -/
  pc : PcWord
  /-- The stack pointer `SP` (R14). -/
  sp : SpWord
  /-- The delay timer `DT` (R15). -/
  dt : TimerByte
  /-- The sound timer `ST` (R15). -/
  st : TimerByte
  /-- The Memory Image (R16). -/
  mem : Memory
  /-- The Display Surface (R17, R18). -/
  disp : Display
  /-- The key vectors of this step (the head) and of the steps after it, as far as the host's choice is given; after
  the last one every key is free (R20, R42; assumption 4). -/
  keyInputs : List Keypad
  /-- The random bytes of this step (the head) and of the steps after it, as far as they are given; after the last one
  the byte is free (R21; assumption 3). -/
  rndInputs : List Byte
  /-- The MODEL'S OWN field: how many steps have been taken, the index of the free inputs (assumptions 3 to 5). -/
  steps : Nat
  /-- The parameters of R5 that this machine is an instance with: constant, no step changes them (R23; assumption 26). -/
  params : Params
deriving DecidableEq, Repr

/-- Why the engine would fault: NOTHING. The set of exceptions is empty (spec/60_exceptions.md R130), so no meaning and
no step can answer a fault. -/
inductive Fault
deriving DecidableEq, Repr

/-- Why the model gives no next state. -/
inductive Refusal where
  /-- An instruction that has no meaning in the model yet: raised by an arm of `exec` alone, and no arm raises it now.
  Safe. -/
  | notModelled (mnemonic : String)
  /-- A program longer than `4096 − PROG_BASE` bytes: raised by `launch` alone, never by a step
  (spec/70_reset_and_hazards.md R152, U10). Safe. -/
  | programTooLong
  /-- A program that would overlap the font table: raised by `launch` alone, never by a step (R152, U10). Safe. -/
  | programOverlapsFont
deriving DecidableEq, Repr

/-- What a step, a meaning or a launch answers. -/
abbrev Result := Host.Outcome State Fault Refusal

/-- Every key slot released (R20, D14). -/
def allReleased : Keypad := Vector.replicate Config.numKeys 0#8

/-- The state right after reset with given parameters (R24, R150), no program loaded: `PC` and `SP` at their bases, the
font in memory (an unlisted address of its region reads as the font), all else zero (D14; assumption 7), all keys released
at the first step. -/
def State.resetWith (p : Params) : State where
  v := Vector.replicate Config.numRegs 0#Config.xlen
  i := 0#Config.iBits
  pc := BitVec.ofNat Config.pcBits p.progBase
  sp := BitVec.ofNat Config.spBits p.stackBase
  dt := 0#Config.timerBits
  st := 0#Config.timerBits
  mem := []
  disp := []
  keyInputs := [allReleased]
  rndInputs := []
  steps := 0
  params := p

/-- The state right after reset, with the parameters at the defaults that R5 suggests (assumption 1). -/
def State.reset : State := State.resetWith Params.suggested

end Sys2Proof.Machine
end

