-- ==== Sys2Proof/Machine/Ops.lean ====
section
/-! DEFINITION. The named operations over registers, memory and display, the call stack, and the phases of a step that are
common to every instruction (spec/20_memory.md, spec/40_engine_step.md). THERE IS NO EXCEPTION ENTRY AND NO EXCEPTION
RETURN HERE: the hardware has neither (spec/60_exceptions.md R130, R131, R133, R134). -/

namespace Sys2Proof.Machine

/-- The flag register's number (R11). -/
def flagReg : Reg := 0xF#4

/-- Read `V[x]` (R8, R10). -/
def State.getV (s : State) (x : Reg) : RegByte := s.v[x.toNat]'x.isLt

/-- `V[x] <- b` (R8, R10). -/
def State.setV (s : State) (x : Reg) (b : RegByte) : State := { s with v := s.v.set x.toNat b x.isLt }

/-- `I <- w` (R8, R12). -/
def State.setI (s : State) (w : IndexWord) : State := { s with i := w }

/-- `PC <- w` (R8, R13). -/
def State.setPc (s : State) (w : PcWord) : State := { s with pc := w }

/-- `SP <- w` (R8, R14). -/
def State.setSp (s : State) (w : SpWord) : State := { s with sp := w }

/-- `DT <- b` (R8, R15). -/
def State.setDt (s : State) (b : TimerByte) : State := { s with dt := b }

/-- `ST <- b` (R8, R15). -/
def State.setSt (s : State) (b : TimerByte) : State := { s with st := b }

/-- Replace the Memory Image (R16). -/
def State.setMem (s : State) (m : Memory) : State := { s with mem := m }

/-- Replace the Display Surface (R17). -/
def State.setDisp (s : State) (d : Display) : State := { s with disp := d }

/-- What an address that no entry lists reads as: the reset contents, the font table in its region and 0 elsewhere
(R16, R24, R151, D14). -/
def unlistedByte (p : Params) (a : Nat) : Byte :=
  if p.fontBase.val ≤ a ∧ a < p.fontBase.val + Config.fontBytes then p.font.getD (a - p.fontBase.val) 0#8 else 0#8

/-- Read byte `a mod 4096` (R31). -/
def Memory.read (p : Params) (m : Memory) (a : Nat) : Byte :=
  match m.find? (fun c => c.1 == a % Config.memSize) with
  | some c => c.2
  | none => unlistedByte p (a % Config.memSize)

/-- Put an entry into its place in rising order. -/
def insertEntry (c : Host.Cell) : Memory → Memory
  | [] => [c]
  | d :: m => if c.1 < d.1 then c :: d :: m else d :: insertEntry c m

/-- Write byte `a mod 4096` (R31), keeping the canonical form: the value that an unlisted address reads as removes the
entry. -/
def Memory.write (p : Params) (m : Memory) (a : Nat) (b : Byte) : Memory :=
  let rest := m.filter (fun c => c.1 != a % Config.memSize)
  if b = unlistedByte p (a % Config.memSize) then rest else insertEntry (a % Config.memSize, b) rest

/-- The canonical form of the Memory Image: addresses strictly rising and below 4096, no entry equal to what its address
reads as when it is not listed. -/
abbrev Memory.wf (p : Params) (m : Memory) : Prop :=
  m.Pairwise (fun c d => c.1 < d.1) ∧ ∀ c ∈ m, c.1 < Config.memSize ∧ c.2 ≠ unlistedByte p c.1

/-- `MemRead(addr, n)` (R31). -/
def memRead (p : Params) (m : Memory) (addr n : Nat) : List Byte :=
  (List.range n).map (fun k => Memory.read p m (addr + k))

/-- `MemWrite(addr, n, v)` with `n` the length of the list, in ascending order (R31). -/
def memWrite (p : Params) (m : Memory) (addr : Nat) : List Byte → Memory
  | [] => m
  | b :: bs => memWrite p (Memory.write p m addr b) (addr + 1) bs

/-- One byte of the Memory Image (R16, R31). -/
def State.byteAt (s : State) (a : Nat) : Byte := Memory.read s.params s.mem a

/-- The bytes a state reads from an address on (R31). -/
def State.loadBytes (s : State) (addr n : Nat) : List Byte := memRead s.params s.mem addr n

/-- The state with a list of bytes written from an address on (R31). -/
def State.storeBytes (s : State) (addr : Nat) (bs : List Byte) : State :=
  s.setMem (memWrite s.params s.mem addr bs)

/-- Is cell `c` lit (R17)? -/
def Display.lit (d : Display) (c : Nat) : Bool := d.contains c

/-- Put a cell's number into its place in rising order. -/
def insertCell (c : Nat) : Display → Display
  | [] => [c]
  | e :: d => if c < e then c :: e :: d else e :: insertCell c d

/-- `disp[c] <- disp[c] XOR ON` (R112) on a cell that holds 0 or `ON` (R18). -/
def Display.toggle (d : Display) (c : Nat) : Display :=
  if Display.lit d c then d.filter (fun e => e != c) else insertCell c d

/-- The canonical form of the Display Surface: lit cells strictly rising and below 2048 (R17). -/
abbrev Display.wf (d : Display) : Prop := d.Pairwise (fun c e => c < e) ∧ ∀ c ∈ d, c < Config.dispCells

/-- One cell with its collision test, the body of R112's inner loop: the display after it, and whether a lit cell has
been met so far. -/
def drawCell (acc : Display × Bool) (c : Nat) : Display × Bool :=
  (Display.toggle acc.1 c, acc.2 || Display.lit acc.1 c)

/-- R112's loops over the cells the sprite touches, in order: the display and the collision. -/
def drawCells (d : Display) (cells : List Nat) : Display × Bool := cells.foldl drawCell (d, false)

/-- `disp[c]`, the 16-bit cell the host reads (R17, R140): `ON` if lit, else 0. -/
def State.cell (s : State) (c : Nat) : CellWord := if Display.lit s.disp c then Config.on else 0#Config.cellBits

/-- The two bytes of a return address as a call pushes them: low byte first (R14, R34). -/
def returnBytes (w : PcWord) : List Byte := [loByte w, hiByte w]

/-- A call's push: two bytes at `SP`, then `SP` two higher (R72). -/
def pushReturn (w : PcWord) (s : State) : State :=
  (s.storeBytes s.sp.toNat (returnBytes w)).setSp (s.sp + 2#Config.spBits)

/-- The address a return would jump to: high byte at `SP − 1`, low byte at `SP − 2` (R70). -/
def topReturn (s : State) : PcWord :=
  wordOfBytes (s.byteAt (s.sp - 1#Config.spBits).toNat) (s.byteAt (s.sp - 2#Config.spBits).toNat)

/-- `ILEN` as the program counter adds it (R4, R62). -/
abbrev pcIlen : PcWord := BitVec.ofNat Config.pcBits Config.ilen

/-- `PC` one instruction further (R62, R73). -/
def State.advancePc (s : State) : State := s.setPc (s.pc + pcIlen)

/-- A skip: one more instruction's bytes if the condition holds (R73). -/
def skipIf (b : Bool) (s : State) : State := if b then s.advancePc else s

/-- FX0A's rewind (R122). -/
def State.rewindPc (s : State) : State := s.setPc (s.pc - pcIlen)

/-- Write the flag first and the result last (R68, D11). -/
def writeFlagThenResult (s : State) (flag : RegByte) (x : Reg) (result : RegByte) : State :=
  (s.setV flagReg flag).setV x result

/-- Write a list of bytes to the registers `k`, `k + 1`, … (R106). -/
def setVs (k : Nat) : List Byte → State → State
  | [], s => s
  | b :: bs, s => setVs (k + 1) bs (s.setV (BitVec.ofNat 4 k) b)

/-- The word that a step fetches: the byte at `PC mod 4096` high, the next one low (R61). -/
def fetchWord (s : State) : Word := wordOfBytes (s.byteAt s.pc.toNat) (s.byteAt (s.pc.toNat + 1))

/-- One timer's tick: down by one, never below zero (R65). -/
def tickTimer (t : TimerByte) : TimerByte := if t = 0#Config.timerBits then 0#Config.timerBits else t - 1#Config.timerBits

/-- The last phase of a step: both timers tick (R65). -/
def State.tick (s : State) : State := (s.setDt (tickTimer s.dt)).setSt (tickTimer s.st)

/-- The inputs of this step are used up; the next step has its own (R20, R21). -/
def State.nextInputs (s : State) : State :=
  { s with keyInputs := s.keyInputs.tail, rndInputs := s.rndInputs.tail, steps := s.steps + 1 }

/-- What follows the execute phase in every step: the tick (R60, R65, D13), and the inputs move on. -/
def endStep (s : State) : State := s.tick.nextInputs

/-- Put an instruction word where the next step fetches it: high byte at `PC`, low byte after it (R33). -/
def placeWord (s : State) (w : Word) : State := s.storeBytes s.pc.toNat (bytesOfWord w)

end Sys2Proof.Machine
end

