-- ==== Sys2Proof/Machine/Operands.lean ====
section
/-! DEFINITION. What the instructions compute from their operands before they write: the decimal digits, the glyph's
address, the cells of a sprite, the registers a store reads, and the inputs of the step (spec/43_index_memory.md,
spec/44_display.md, spec/45_keypad_timers.md). -/

namespace Sys2Proof.Machine

/-- The byte of a flag: 1 or 0 (R11). -/
def boolByte (b : Bool) : RegByte := if b then 1#Config.xlen else 0#Config.xlen

/-- The decimal digits of a byte, hundreds first (R104). -/
def decimalDigits (b : RegByte) : List Byte :=
  [BitVec.ofNat 8 (b.toNat / 100), BitVec.ofNat 8 (b.toNat / 10 % 10), BitVec.ofNat 8 (b.toNat % 10)]

/-- `FONT_BASE + vx · 5`, with the whole byte (R103). -/
def glyphAddress (p : Params) (b : RegByte) : IndexWord :=
  BitVec.ofNat Config.iBits (p.fontBase.val + b.toNat * Config.glyphBytes)

/-- `V[0]` to `V[x]`, in order (R105). -/
def regsUpTo (s : State) (x : Reg) : List Byte :=
  (List.range (x.toNat + 1)).map (fun k => s.getV (BitVec.ofNat 4 k))

/-- `Cell(vx, vy, row, col)` (R111). -/
def cellIndex (vx vy : RegByte) (row col : Nat) : Nat :=
  ((vy.toNat + row) * Config.dispW + vx.toNat + col) % Config.dispCells

/-- The bit positions of a sprite byte that are set, most significant first (R112). -/
def setColumns (b : Byte) : List Nat := (List.range 8).filter (fun col => b.getLsbD (7 - col))

/-- The cells a sprite touches, in R112's order: rows ascending from `row`, columns ascending. -/
def spriteCells (vx vy : RegByte) (row : Nat) : List Byte → List Nat
  | [] => []
  | b :: bs => (setColumns b).map (cellIndex vx vy row) ++ spriteCells vx vy (row + 1) bs

/-- Slot `k` of the Keypad State of this step, for `k` below 16 (R20; free where the state gives none: assumption 4). -/
def keySlot (s : State) (k : Nat) : Byte :=
  match s.keyInputs with
  | keys :: _ => keys.getD k 0#8
  | [] => Config.hostKey s.steps k

/-- `Pressed(k)` of a byte `k` (R20): the slot holds something other than 0; above 15 a free Boolean (D9). -/
def pressed (s : State) (k : RegByte) : Bool :=
  if k.toNat < Config.numKeys then keySlot s k.toNat != 0#8 else Config.pressedBeyond s.steps k

/-- The least pressed key, if any (R122). -/
def firstPressed (s : State) : Option Nat := (List.range Config.numKeys).find? (fun k => keySlot s k != 0#8)

/-- `rnd`, the random byte of this step (R21; free where the state gives none: assumption 3). -/
def randomInput (s : State) : Byte :=
  match s.rndInputs with
  | b :: _ => b
  | [] => Config.randomByte s.steps

end Sys2Proof.Machine
end

