-- ==== Sys2Proof/Machine/Flags.lean ====
section
/-! DEFINITION. The flags that the arithmetic and shift instructions write to `VF` (spec/10_state.md R11, spec/42_alu.md
R92). -/

namespace Sys2Proof.Machine

/-- 8XY4: 1 if `a + b > 255` (R86). -/
def carryFlag (a b : RegByte) : RegByte := boolByte (decide (a.toNat + b.toNat > 2 ^ Config.xlen - 1))

/-- 8XY5: 1 if `a > b`, strictly (R87). -/
def greaterFlag (a b : RegByte) : RegByte := boolByte (decide (a.toNat > b.toNat))

/-- 8XY7: 1 if `a < b`, strictly (R89). -/
def lessFlag (a b : RegByte) : RegByte := boolByte (decide (a.toNat < b.toNat))

/-- 8XY6: the bit shifted out at the bottom (R88). -/
def lowBitFlag (a : RegByte) : RegByte := boolByte (a.getLsbD 0)

/-- 8XYE: the bit shifted out at the top (R90). -/
def highBitFlag (a : RegByte) : RegByte := boolByte (a.getLsbD (Config.xlen - 1))

end Sys2Proof.Machine
end

