-- ==== Sys2Proof/Machine/Alu.lean ====
section
/-! DEFINITION. The execute phases of spec/42_alu.md (R80 to R91). Operands are the values the registers hold on entry; a
flag is written before the result (R68, D11). -/

namespace Sys2Proof.Machine

/-- 6XNN `LD Vx, nn` (R80). -/
def execLdImm (x : Reg) (nn : Byte) (s : State) : Result := .next (s.setV x nn)

/-- 7XNN `ADD Vx, nn` (R81): `VF` is not written. -/
def execAddImm (x : Reg) (nn : Byte) (s : State) : Result := .next (s.setV x (s.getV x + nn))

/-- 8XY0 `LD Vx, Vy` (R82). -/
def execLdReg (x y : Reg) (s : State) : Result := .next (s.setV x (s.getV y))

/-- 8XY1 `OR Vx, Vy` (R83). -/
def execOrReg (x y : Reg) (s : State) : Result := .next (s.setV x (s.getV x ||| s.getV y))

/-- 8XY2 `AND Vx, Vy` (R84). -/
def execAndReg (x y : Reg) (s : State) : Result := .next (s.setV x (s.getV x &&& s.getV y))

/-- 8XY3 `XOR Vx, Vy` (R85). -/
def execXorReg (x y : Reg) (s : State) : Result := .next (s.setV x (s.getV x ^^^ s.getV y))

/-- 8XY4 `ADD Vx, Vy` (R86). -/
def execAddReg (x y : Reg) (s : State) : Result :=
  .next (writeFlagThenResult s (carryFlag (s.getV x) (s.getV y)) x (s.getV x + s.getV y))

/-- 8XY5 `SUB Vx, Vy` (R87). -/
def execSubReg (x y : Reg) (s : State) : Result :=
  .next (writeFlagThenResult s (greaterFlag (s.getV x) (s.getV y)) x (s.getV x - s.getV y))

/-- 8XY6 `SHR Vx` (R88): `V[y]` is neither read nor written. -/
def execShr (x _y : Reg) (s : State) : Result :=
  .next (writeFlagThenResult s (lowBitFlag (s.getV x)) x (s.getV x >>> 1))

/-- 8XY7 `SUBN Vx, Vy` (R89). -/
def execSubnReg (x y : Reg) (s : State) : Result :=
  .next (writeFlagThenResult s (lessFlag (s.getV x) (s.getV y)) x (s.getV y - s.getV x))

/-- 8XYE `SHL Vx` (R90): `V[y]` is neither read nor written. -/
def execShl (x _y : Reg) (s : State) : Result :=
  .next (writeFlagThenResult s (highBitFlag (s.getV x)) x (s.getV x <<< 1))

/-- CXNN `RND Vx, nn` (R91). -/
def execRnd (x : Reg) (nn : Byte) (s : State) : Result := .next (s.setV x (randomInput s &&& nn))

end Sys2Proof.Machine
end

