-- ==== Sys2Proof/Machine/ControlFlow.lean ====
section
/-! DEFINITION. The execute phases of spec/41_control_flow.md (R70 to R77) and of the unmatched word
(spec/40_engine_step.md R64). On entry `PC` is the instruction's address plus 2 (R62). -/

namespace Sys2Proof.Machine

/-- 00EE `RET` (R70). -/
def execRet (s : State) : Result := .next ((s.setSp (s.sp - 2#Config.spBits)).setPc (topReturn s))

/-- 1NNN `JP nnn` (R71). -/
def execJp (nnn : Addr) (s : State) : Result := .next (s.setPc (nnn.setWidth Config.pcBits))

/-- 2NNN `CALL nnn` (R72). -/
def execCall (nnn : Addr) (s : State) : Result := .next ((pushReturn s.pc s).setPc (nnn.setWidth Config.pcBits))

/-- 3XNN `SE Vx, nn` (R73). -/
def execSeImm (x : Reg) (nn : Byte) (s : State) : Result := .next (skipIf (s.getV x == nn) s)

/-- 4XNN `SNE Vx, nn` (R74). -/
def execSneImm (x : Reg) (nn : Byte) (s : State) : Result := .next (skipIf (s.getV x != nn) s)

/-- 5XY0 `SE Vx, Vy` (R75). -/
def execSeReg (x y : Reg) (s : State) : Result := .next (skipIf (s.getV x == s.getV y) s)

/-- 9XY0 `SNE Vx, Vy` (R76). -/
def execSneReg (x y : Reg) (s : State) : Result := .next (skipIf (s.getV x != s.getV y) s)

/-- BNNN `JP V0, nnn` (R77). -/
def execJpV0 (nnn : Addr) (s : State) : Result :=
  .next (s.setPc ((s.getV 0x0#4).setWidth Config.pcBits + nnn.setWidth Config.pcBits))

/-- The unmatched word: the execute phase does nothing (R64). -/
def execNop (_w : Word) (s : State) : Result := .next s

end Sys2Proof.Machine
end

