-- ==== Sys2Proof/Machine/Draw.lean ====
section
/-! DEFINITION. The execute phases of spec/44_display.md (R110, R112). -/

namespace Sys2Proof.Machine

/-- 00E0 `CLS` (R110). -/
def execCls (s : State) : Result := .next (s.setDisp [])

/-- The cells that DXYN touches from this state: the sprite's `n` bytes at `I`, the coordinates as sampled on entry
(R68, R112). -/
def drawnCells (x y : Reg) (n : Nibble) (s : State) : List Nat :=
  spriteCells (s.getV x) (s.getV y) 0 (s.loadBytes s.i.toNat n.toNat)

/-- DXYN `DRW Vx, Vy, n` (R112). -/
def execDrw (x y : Reg) (n : Nibble) (s : State) : Result :=
  let r := drawCells s.disp (drawnCells x y n s)
  .next ((s.setV flagReg (boolByte r.2)).setDisp r.1)

end Sys2Proof.Machine
end

