-- ==== Sys2Proof/Machine/IndexMemory.lean ====
section
/-! DEFINITION. The execute phases of spec/43_index_memory.md (R101 to R106). `I` is changed by none of the transfers
(R100). -/

namespace Sys2Proof.Machine

/-- ANNN `LD I, nnn` (R101). -/
def execLdI (nnn : Addr) (s : State) : Result := .next (s.setI (nnn.setWidth Config.iBits))

/-- FX1E `ADD I, Vx` (R102): `VF` is not written. -/
def execAddI (x : Reg) (s : State) : Result := .next (s.setI (s.i + (s.getV x).setWidth Config.iBits))

/-- FX29 `LD F, Vx` (R103). -/
def execLdF (x : Reg) (s : State) : Result := .next (s.setI (glyphAddress s.params (s.getV x)))

/-- FX33 `LD B, Vx` (R104). -/
def execLdB (x : Reg) (s : State) : Result := .next (s.storeBytes s.i.toNat (decimalDigits (s.getV x)))

/-- FX55 `LD [I], Vx` (R105). -/
def execStoreRegs (x : Reg) (s : State) : Result := .next (s.storeBytes s.i.toNat (regsUpTo s x))

/-- FX65 `LD Vx, [I]` (R106). -/
def execLoadRegs (x : Reg) (s : State) : Result :=
  .next (setVs 0 (s.loadBytes s.i.toNat (x.toNat + 1)) s)

end Sys2Proof.Machine
end

