-- ==== Sys2Proof/Machine/KeypadTimers.lean ====
section
/-! DEFINITION. The execute phases of spec/45_keypad_timers.md (R120 to R125). On entry `PC` is the instruction's address
plus 2 (R62). -/

namespace Sys2Proof.Machine

/-- EX9E `SKP Vx` (R120). -/
def execSkp (x : Reg) (s : State) : Result := .next (skipIf (pressed s (s.getV x)) s)

/-- EXA1 `SKNP Vx` (R121). -/
def execSknp (x : Reg) (s : State) : Result := .next (skipIf (!pressed s (s.getV x)) s)

/-- FX0A `LD Vx, K` (R122). -/
def execLdVxK (x : Reg) (s : State) : Result :=
  match firstPressed s with
  | some k => .next (s.setV x (BitVec.ofNat Config.xlen k))
  | none => .next s.rewindPc

/-- FX07 `LD Vx, DT` (R123). -/
def execLdVxDt (x : Reg) (s : State) : Result := .next (s.setV x s.dt)

/-- FX15 `LD DT, Vx` (R124). -/
def execLdDtVx (x : Reg) (s : State) : Result := .next (s.setDt (s.getV x))

/-- FX18 `LD ST, Vx` (R125). -/
def execLdStVx (x : Reg) (s : State) : Result := .next (s.setSt (s.getV x))

end Sys2Proof.Machine
end

