-- ==== Sys2Proof/Machine/Step.lean ====
section
/-! DEFINITION. The engine's one transition (spec/40_engine_step.md R60). -/

namespace Sys2Proof.Machine

/-- `Step` (R60): fetch, advance `PC`, decode, execute, tick; the inputs are those the state holds for this step. -/
def step (s : State) : Host.Outcome State Fault Refusal :=
  match exec (decode (fetchWord s)) s.advancePc with
  | .next t => .next (endStep t)
  | .fault f => .fault f
  | .refused r => .refused r

/-- The state with a table word placed where `step` fetches its next instruction. -/
def State.withFetchWord (s : State) (nbits w : Nat) : State := placeWord s (tableWord nbits w)

end Sys2Proof.Machine
end

