-- ==== Sys2Proof/Machine/Launch.lean ====
section
/-! DEFINITION. The host's side of a run (spec/70_reset_and_hazards.md R150 to R155, R165): loading a program, setting the
inputs of a step, and the test that ends a run. -/

namespace Sys2Proof.Machine

/-- The program copied byte for byte from `PROG_BASE` on (R152). -/
def loadProgram (program : List Byte) (s : State) : State := s.storeBytes s.params.progBase program

/-- Do the region of a program of `len` bytes and the font's share an address (R152, D19)? -/
def overlapsFont (p : Params) (len : Nat) : Bool :=
  decide (0 < len ∧ p.progBase.val < p.fontBase.val + Config.fontBytes ∧ p.fontBase.val < p.progBase.val + len)

/-- A launch with given parameters (R150, R155): the reset state with the program in memory. One that breaks a precondition
of R152 is refused, as the spec asks of a model. -/
def launchWith (p : Params) (program : List Byte) : Result :=
  if Config.memSize - p.progBase.val < program.length then .refused .programTooLong
  else if overlapsFont p program.length then .refused .programOverlapsFont
  else .next (loadProgram program (State.resetWith p))

/-- A launch with the suggested parameters (assumption 1). -/
def launch (program : List Byte) : Result := launchWith Params.suggested program

/-- The key vector that a host leaves which holds down the keys of a list (R137): `KEY_DOWN` in their slots, 0 in the
others. -/
def hostKeys (p : Params) (down : List Nat) : Keypad :=
  Vector.ofFn (fun k => if down.contains k.val then p.keyDown.val else 0#8)

/-- The host's keypad write between steps (R42, R165): the key vector of the next step. -/
def State.setKeys (s : State) (keys : Keypad) : State := { s with keyInputs := keys :: s.keyInputs.tail }

/-- The random byte supplied to the next step (R21, R165). -/
def State.setRandom (s : State) (b : Byte) : State := { s with rndInputs := b :: s.rndInputs.tail }

/-- `Step(s, key, rnd)` with its inputs given (R60). -/
def stepWith (keys : Keypad) (b : Byte) (s : State) : Result := step ((s.setKeys keys).setRandom b)

/-- Has a run of a program of `len` bytes ended (R154, D15)? The 16-bit `PC` is compared, strictly. -/
def runEnded (len : Nat) (s : State) : Bool := decide (s.params.progBase.val + len < s.pc.toNat)

/-- The host's loop (R154), for at most `fuel` steps. -/
def hostRun (len : Nat) : Nat → State → Result
  | 0, s => .next s
  | fuel + 1, s =>
    if runEnded len s then .next s
    else
      match step s with
      | .next t => hostRun len fuel t
      | .fault f => .fault f
      | .refused r => .refused r

end Sys2Proof.Machine
end

