-- ==== Sys2Proof/Machine/Diagnostics.lean ====
section
/-! DEFINITION. The diagnostic predicates of spec/60_exceptions.md R143 on the step a state is about to take. They are not
behaviour of the hardware: no step asks them. -/

namespace Sys2Proof.Machine

/-- `UnmatchedWord` (R143). -/
def unmatchedStep (s : State) : Bool := unmatchedWord (fetchWord s)

/-- `StackOverflow` (R143): a pushed byte would fall outside the region. -/
def stackOverflow (s : State) : Bool :=
  match decode (fetchWord s) with
  | .call _ => decide (s.params.stackBase.val + s.params.stackSize - 1 ≤ s.sp.toNat % Config.memSize)
  | _ => false

/-- `StackUnderflow` (R143). -/
def stackUnderflow (s : State) : Bool :=
  match decode (fetchWord s) with
  | .ret => decide (s.sp.toNat % Config.memSize < s.params.stackBase.val + 2)
  | _ => false

/-- The addresses, before reduction, that the execute phase reads or writes (R32). -/
def accessedAddresses (i : Instr) (s : State) : List Nat :=
  match i with
  | .ret => [(s.sp - 1#Config.spBits).toNat, (s.sp - 2#Config.spBits).toNat]
  | .call _ => [s.sp.toNat, s.sp.toNat + 1]
  | .drw _ _ n => (List.range n.toNat).map (fun k => s.i.toNat + k)
  | .ldB _ => (List.range 3).map (fun k => s.i.toNat + k)
  | .storeRegs x => (List.range (x.toNat + 1)).map (fun k => s.i.toNat + k)
  | .loadRegs x => (List.range (x.toNat + 1)).map (fun k => s.i.toNat + k)
  | _ => []

/-- `AddressAlias` (R143): the fetch or an access had an address of 4096 or more before reduction. -/
def addressAlias (s : State) : Bool :=
  ([s.pc.toNat, s.pc.toNat + 1] ++ accessedAddresses (decode (fetchWord s)) s).any (fun a => decide (Config.memSize ≤ a))

/-- `KeyOutOfRange` (R143). -/
def keyOutOfRange (s : State) : Bool :=
  match decode (fetchWord s) with
  | .skp x => decide (Config.numKeys ≤ (s.getV x).toNat)
  | .sknp x => decide (Config.numKeys ≤ (s.getV x).toNat)
  | _ => false

/-- `FontOutOfRange` (R143). -/
def fontOutOfRange (s : State) : Bool :=
  match decode (fetchWord s) with
  | .ldF x => decide (Config.fontGlyphs ≤ (s.getV x).toNat)
  | _ => false

/-- None of R143's predicates is true of the step. -/
def cleanStep (s : State) : Bool :=
  !(unmatchedStep s || stackOverflow s || stackUnderflow s || addressAlias s || keyOutOfRange s || fontOutOfRange s)

end Sys2Proof.Machine
end

