-- ==== Sys2Proof/Safety.lean ====
section
/-! DEFINITION. The terms claims use: the invariant of the state, what a frame says, which parts of the state an
instruction may change, and what a clean run is. -/

namespace Sys2Proof

open Machine

/-- The invariant of the state: the Memory Image and the Display Surface are in canonical form, so that equal stores are
equal data and every listed address and cell exists (R16, R17). -/
def Inv (s : State) : Prop := Memory.wf s.params s.mem ∧ Display.wf s.disp

/-- The parts of the state a frame speaks of. `inputs` are the planned key vectors and random bytes and the step count; `params` the parameters of R5. -/
inductive Part where
  | v | i | pc | sp | dt | st | mem | disp | inputs | params
deriving DecidableEq, Repr

/-- The part reads the same in both states: register by register, byte by byte, cell by cell. -/
def Part.same (s t : State) : Part → Prop
  | .v => ∀ r : Reg, t.getV r = s.getV r
  | .i => t.i = s.i
  | .pc => t.pc = s.pc
  | .sp => t.sp = s.sp
  | .dt => t.dt = s.dt
  | .st => t.st = s.st
  | .mem => ∀ a : Nat, t.byteAt a = s.byteAt a
  | .disp => ∀ c : Nat, t.cell c = s.cell c
  | .inputs => t.keyInputs = s.keyInputs ∧ t.rndInputs = s.rndInputs ∧ t.steps = s.steps
  | .params => t.params = s.params

/-- Every part but the listed ones reads the same: the frame of a change from `s` to `t`. -/
def UnchangedBut (ps : List Part) (s t : State) : Prop := ∀ p : Part, p ∉ ps → p.same s t

/-- The frame of an instruction that writes one register: `V[x]` holds `b`, all else reads as before. -/
def WritesReg (x : Reg) (b : RegByte) (s t : State) : Prop :=
  t.getV x = b ∧ (∀ r : Reg, r ≠ x → t.getV r = s.getV r) ∧ UnchangedBut [.v] s t

/-- The frame of an instruction with a flag (R68, R11): `V[x]` holds the result, `VF` the flag unless it is `V[x]`
itself, all else reads as before. -/
def WritesFlagAndReg (x : Reg) (flag result : RegByte) (s t : State) : Prop :=
  t.getV x = result ∧ (x ≠ 0xF#4 → t.getV 0xF#4 = flag) ∧
    (∀ r : Reg, r ≠ x → r ≠ 0xF#4 → t.getV r = s.getV r) ∧ UnchangedBut [.v] s t

/-- The frame of a skip: one instruction more if the condition holds, all else reads as before. -/
def SkipsIf (b : Prop) (s t : State) : Prop :=
  (b → t.pc = s.pc + pcIlen) ∧ (¬b → t.pc = s.pc) ∧ UnchangedBut [.pc] s t

/-- A store of bytes from an address on (R31): byte `k` of the list at `(addr + k) mod 4096`, every other byte of memory
as before. -/
def StoresBytes (addr : Nat) (bytes : List Byte) (s t : State) : Prop :=
  (∀ k b, bytes[k]? = some b → t.byteAt (addr + k) = b) ∧
    (∀ a, (∀ k, k < bytes.length → a % Config.memSize ≠ (addr + k) % Config.memSize) → t.byteAt a = s.byteAt a)

/-- R54's test for one row: a word decodes to the row's instruction, its operands read from the word's fields, if and
only if `W AND mask = pattern`. -/
def EncodedBy (mask pattern : Word) (build : Word → Instr) : Prop :=
  ∀ w : Word, decode w = build w ↔ w &&& mask = pattern

/-- The registers an instruction may change: R10's "write `V[x]`", "write `V[0..x]`" and "write `V[15]` as a flag". -/
def mayWriteReg (i : Instr) (r : Reg) : Bool :=
  match i with
  | .ldImm x _ => r == x
  | .addImm x _ => r == x
  | .ldReg x _ => r == x
  | .orReg x _ => r == x
  | .andReg x _ => r == x
  | .xorReg x _ => r == x
  | .rnd x _ => r == x
  | .ldVxDt x => r == x
  | .ldVxK x => r == x
  | .addReg x _ => r == x || r == flagReg
  | .subReg x _ => r == x || r == flagReg
  | .shr x _ => r == x || r == flagReg
  | .subnReg x _ => r == x || r == flagReg
  | .shl x _ => r == x || r == flagReg
  | .drw _ _ _ => r == flagReg
  | .loadRegs x => decide (r.toNat ≤ x.toNat)
  | _ => false

/-- The instructions that write `I` (R12). -/
def writesIndex : Instr → Bool
  | .ldI _ => true
  | .addI _ => true
  | .ldF _ => true
  | _ => false

/-- The instructions that write `SP` (R14). -/
def writesStackPointer : Instr → Bool
  | .call _ => true
  | .ret => true
  | _ => false

/-- The instructions that write the display (R17). -/
def writesDisplay : Instr → Bool
  | .cls => true
  | .drw _ _ _ => true
  | _ => false

/-- The instructions that read the keypad (R66). -/
def readsKeypad : Instr → Bool
  | .skp _ => true
  | .sknp _ => true
  | .ldVxK _ => true
  | _ => false

/-- The instruction that reads the random byte (R66). -/
def readsRandom : Instr → Bool
  | .rnd _ _ => true
  | _ => false

/-- The bytes of memory that an instruction writes, as an address and a count (R32). -/
def storedRange (i : Instr) (s : State) : Nat × Nat :=
  match i with
  | .call _ => (s.sp.toNat, 2)
  | .ldB _ => (s.i.toNat, 3)
  | .storeRegs x => (s.i.toNat, x.toNat + 1)
  | _ => (0, 0)

/-- `PC` after the execute phase, from the state on entry to it (R13's table; `PC` on entry is `PC0 + 2`). -/
def nextPc (i : Instr) (s : State) : PcWord :=
  match i with
  | .jp nnn => nnn.setWidth Config.pcBits
  | .call nnn => nnn.setWidth Config.pcBits
  | .ret => topReturn s
  | .jpV0 nnn => (s.getV 0x0#4).setWidth Config.pcBits + nnn.setWidth Config.pcBits
  | .seImm x nn => if s.getV x = nn then s.pc + pcIlen else s.pc
  | .sneImm x nn => if s.getV x = nn then s.pc else s.pc + pcIlen
  | .seReg x y => if s.getV x = s.getV y then s.pc + pcIlen else s.pc
  | .sneReg x y => if s.getV x = s.getV y then s.pc else s.pc + pcIlen
  | .skp x => if pressed s (s.getV x) then s.pc + pcIlen else s.pc
  | .sknp x => if pressed s (s.getV x) then s.pc else s.pc + pcIlen
  | .ldVxK _ => if (firstPressed s).isSome then s.pc else s.pc - pcIlen
  | _ => s.pc

/-- The sprite of DXYN has a set bit over cell `c` (R111, R112): some row below `n` and some column below 8 whose bit,
most significant first, is 1 and whose cell is `c`. -/
def SpriteCovers (x y : Reg) (n : Nibble) (s : State) (c : Nat) : Prop :=
  ∃ row, row < n.toNat ∧ ∃ col, col < 8 ∧ (s.byteAt (s.i.toNat + row)).getLsbD (7 - col) = true ∧
    c = (((s.getV y).toNat + row) * Config.dispW + (s.getV x).toNat + col) % Config.dispCells

/-- A clean run: `n` steps, each of which gives a next state and none of which meets a diagnostic of R143. -/
def CleanRun : Nat → State → Prop
  | 0, _ => True
  | n + 1, s => cleanStep s = true ∧ ∃ t, step s = .next t ∧ CleanRun n t

end Sys2Proof
end

