-- ==== Sys2Proof/Certificates/Slice0/Obligations.lean ====
section
/-! DEFINITION. The statements for the provers, from the numbered rules of spec/: reset and launch, decoding, the step, the
memory primitives, every instruction's effect and frame with its completion, and the rules about the whole machine. -/

open Sys2Proof Sys2Proof.Machine

/-! Reset and launch (spec/10_state.md, spec/70_reset_and_hazards.md) -/

/-- R24's table at reset, for all parameters: `PC` and `SP` at their bases, all else 0. The zeros are the spec's own decision
D14 (assumption 7); `State.reset` has the suggested parameters (assumptions 1 and 26). -/
def Obligations.ResetRegistersAndDisplay : Prop :=
  (∀ p : Params,
    (State.resetWith p).pc.toNat = p.progBase.val ∧ (State.resetWith p).sp.toNat = p.stackBase.val ∧
    (∀ r : Reg, (State.resetWith p).getV r = 0#8) ∧ (State.resetWith p).i = 0#16 ∧ (State.resetWith p).dt = 0#8 ∧
    (State.resetWith p).st = 0#8 ∧ (∀ c : Nat, (State.resetWith p).cell c = 0#16) ∧
    (∀ k, k < 16 → keySlot (State.resetWith p) k = 0#8) ∧ (State.resetWith p).params = p) ∧
  State.reset = State.resetWith Params.suggested

/-- R16 and R151: the font's 80 bytes at `FONT_BASE` at reset, 0 elsewhere, for all parameters. The zeros are decision D14
(assumption 7). -/
def Obligations.ResetMemoryIsFontAndZeros : Prop :=
  ∀ p : Params, (∀ k, ∀ h : k < 80, (State.resetWith p).byteAt (p.fontBase.val + k) = p.font[k]'h) ∧
    ∀ a, a < 4096 → (a < p.fontBase.val ∨ p.fontBase.val + 80 ≤ a) → (State.resetWith p).byteAt a = 0#8

/-- R150 to R152: with any parameters a launch of a program that fits, its region apart from the font's, puts its bytes at
`PROG_BASE`, keeps the font, leaves 0 elsewhere, and starts at `PROG_BASE` with the stack at `STACK_BASE`, in a state that
meets the invariant. Decisions D14 and D19 (assumptions 7, 8); `launch` has the suggested parameters (assumption 1). -/
def Obligations.LaunchPlacesProgram : Prop :=
  (∀ (p : Params) (program : List Byte), program.length ≤ 4096 - p.progBase.val →
    (program = [] ∨ p.fontBase.val + 80 ≤ p.progBase.val ∨ p.progBase.val + program.length ≤ p.fontBase.val) →
    ∃ s, launchWith p program = .next s ∧ s.pc.toNat = p.progBase.val ∧ s.sp.toNat = p.stackBase.val ∧ s.params = p ∧
      (∀ k b, program[k]? = some b → s.byteAt (p.progBase.val + k) = b) ∧
      (∀ k, ∀ h : k < 80, s.byteAt (p.fontBase.val + k) = p.font[k]'h) ∧
      (∀ a, a < 4096 → (a < p.fontBase.val ∨ p.fontBase.val + 80 ≤ a) →
        (a < p.progBase.val ∨ p.progBase.val + program.length ≤ a) → s.byteAt a = 0#8) ∧
      Inv s) ∧
  ∀ program : List Byte, launch program = launchWith Params.suggested program

/-- R152, U10: a longer program is refused by name, given no meaning (D19, assumption 8). -/
def Obligations.LaunchRefusesLongProgram : Prop :=
  (∀ (p : Params) (program : List Byte), 4096 - p.progBase.val < program.length →
    launchWith p program = .refused .programTooLong) ∧
  ∀ program : List Byte, 4096 - Params.suggested.progBase.val < program.length → launch program = .refused .programTooLong

/-! Decoding and encoding (spec/30_encoding.md) -/

/-- A few words of R54 written out from its encoding strings, laid out in memory as R33 says, and two unmatched words of
R56. -/
def Obligations.SampleWordsDecode : Prop :=
  decodeTableWord 16 0x00E0 = some .cls ∧ decodeTableWord 16 0x1ABC = some (.jp 0xABC#12) ∧
    decodeTableWord 16 0x332A = some (.seImm 0x3#4 0x2A#8) ∧ decodeTableWord 16 0x8127 = some (.subnReg 0x1#4 0x2#4) ∧
    decodeTableWord 16 0xD012 = some (.drw 0x0#4 0x1#4 0x2#4) ∧ decodeTableWord 16 0xE4A1 = some (.sknp 0x4#4) ∧
    decodeTableWord 16 0xF20A = some (.ldVxK 0x2#4) ∧ decodeTableWord 16 0xF265 = some (.loadRegs 0x2#4) ∧
    decodeTableWord 16 0x5121 = some (.nop 0x5121#16) ∧ decodeTableWord 16 0x0000 = some (.nop 0x0000#16)

/-- R54, R55: a word decodes to a row's instruction, operands from the fields, if and only if `W AND mask = match`, and a
word that matches no row is the no-op. The masks of the families 0, 5 and 9 are decision D12. -/
def Obligations.DecodeFollowsMaskAndMatch : Prop :=
  ∀ w : Word, (∀ row ∈ opcodeRows, (decode w = row.build w ↔ w &&& row.mask = row.pattern)) ∧
    ((∀ row ∈ opcodeRows, w &&& row.mask ≠ row.pattern) → decode w = .nop w)

/-- R56: the words that decode to the no-op are exactly those its table lists, family by family. -/
def Obligations.UnmatchedWordsAreTheNops : Prop :=
  ∀ w : Word, decode w = .nop w ↔ unmatchedWord w = true

/-- Decoding an encoded well-formed instruction gives it back, with every operand at every value. That 8XY6, 8XYE and the
no-op keep the bits they ignore as an operand is the model's choice (log entry 22, DESIGN CHOICE); the masks of the families
0, 5 and 9 are decision D12. -/
def Obligations.DecodeAfterEncode : Prop :=
  ∀ i : Instr, i.wellFormed = true → decode (encode i) = i

/-- Encoding a decoded word gives the word back, and what a word decodes to is well-formed: every one of the 65536 words
has one meaning and loses no bit. That no bit is lost in 8XY6, 8XYE and the no-op is the model's choice (log entry 22,
DESIGN CHOICE): their constructors keep the bits that the machine ignores, where R58's notation assembles the unused `y` as 0.
The masks of the families 0, 5 and 9 are decision D12. -/
def Obligations.EncodeAfterDecode : Prop :=
  ∀ w : Word, encode (decode w) = w ∧ (decode w).wellFormed = true

/-! The step (spec/40_engine_step.md) -/

/-- R61, R33, R31: the fetched word is the byte at `PC mod 4096` times 256 plus the byte at `(PC + 1) mod 4096`. Decisions
D1 and D2. -/
def Obligations.FetchIsHighByteFirst : Prop :=
  ∀ s : State, (fetchWord s).toNat =
    (s.byteAt (s.pc.toNat % 4096)).toNat * 256 + (s.byteAt ((s.pc.toNat + 1) % 4096)).toNat

/-- R60: when the bytes at `PC` decode to a well-formed instruction, the step is that instruction's execute phase from the
state with `PC` two higher, and after it the end of the step: both timers tick (R65) and the inputs move on to the next
step's. The tick's place is decision D13; the inputs as fields are assumptions 3 and 4. -/
def Obligations.StepRunsDecodedInstruction : Prop :=
  (∀ (s : State) (i : Instr), decodeBytes [s.byteAt s.pc.toNat, s.byteAt (s.pc.toNat + 1)] = .ok (i, []) →
    i.wellFormed = true →
    step s = (match exec i (s.setPc (s.pc + 2#16)) with
      | .next u => .next (endStep u)
      | .fault f => .fault f
      | .refused r => .refused r)) ∧
  ∀ u : State, (endStep u).dt = (if u.dt = 0#8 then 0#8 else u.dt - 1#8) ∧
    (endStep u).st = (if u.st = 0#8 then 0#8 else u.st - 1#8) ∧
    (endStep u).keyInputs = u.keyInputs.tail ∧ (endStep u).rndInputs = u.rndInputs.tail ∧
    UnchangedBut [.dt, .st, .inputs] u (endStep u)

/-- R67, R130: no instruction and no step traps, stops or blocks: every instruction in every state, and so every step,
gives a next state. -/
def Obligations.EveryStepAnswersNext : Prop :=
  (∀ (i : Instr) (s : State), ∃ t, exec i s = .next t) ∧ ∀ s : State, ∃ t, step s = .next t

/-- R65: every step decrements each timer by one and never below zero; a timer that the step's own instruction sets is
decremented from the value set, and FX07 reads `DT` as it stood before. The tick's place is decision D13. -/
def Obligations.TimersTickOncePerStep : Prop :=
  ∀ s : State, ∃ t, step s = .next t ∧
    t.dt.toNat = (match decode (fetchWord s) with
      | .ldDtVx x => (s.getV x).toNat - 1
      | _ => s.dt.toNat - 1) ∧
    t.st.toNat = (match decode (fetchWord s) with
      | .ldStVx x => (s.getV x).toNat - 1
      | _ => s.st.toNat - 1) ∧
    ∀ x, decode (fetchWord s) = .ldVxDt x → t.getV x = s.dt

/-- R13: the table of `PC` after the step, for every instruction. Wrapping at 16 bits is decision D2; the key instructions
read the step's keys (R20). -/
def Obligations.ProgramCounterAfterStep : Prop :=
  ∀ s : State, ∃ t, step s = .next t ∧ t.pc = nextPc (decode (fetchWord s)) (s.setPc (s.pc + 2#16))

/-- R64: a word that matches no row does nothing in its execute phase; the step still advances `PC` by 2 and ticks the
timers, and changes nothing else. -/
def Obligations.UnmatchedWordDoesNothing : Prop :=
  (∀ (w : Word) (s : State), ∃ t, exec (.nop w) s = .next t ∧ UnchangedBut [] s t) ∧
  ∀ s : State, unmatchedWord (fetchWord s) = true →
    ∃ t, step s = .next t ∧ t.pc = s.pc + 2#16 ∧ t.dt.toNat = s.dt.toNat - 1 ∧ t.st.toNat = s.st.toNat - 1 ∧
      UnchangedBut [.pc, .dt, .st, .inputs] s t

/-! The memory primitives (spec/20_memory.md) and the display cells (spec/10_state.md) -/

/-- R31: `MemWrite` puts byte `k` of its list at `(addr + k) mod 4096` and leaves every other byte, and `MemRead` gives the
bytes at `(addr + k) mod 4096` in order. -/
def Obligations.MemoryPrimitivesReduceAddresses : Prop :=
  (∀ (p : Params) (m : Memory) (addr : Nat) (bs : List Byte), bs.length ≤ 4096 →
    (∀ k b, bs[k]? = some b → Memory.read p (memWrite p m addr bs) ((addr + k) % 4096) = b) ∧
    ∀ a, (∀ k, k < bs.length → a % 4096 ≠ (addr + k) % 4096) →
      Memory.read p (memWrite p m addr bs) a = Memory.read p m a) ∧
  ∀ (p : Params) (m : Memory) (addr n : Nat), (memRead p m addr n).length = n ∧
    ∀ k, k < n → (memRead p m addr n)[k]? = some (Memory.read p m ((addr + k) % 4096))

/-- R18, R5: a cell holds 0 or `ON`, and `ON` is not 0. The lit cells are what the state holds (assumption 6), so this says
what the host reads of them. -/
def Obligations.CellsHoldZeroOrOn : Prop :=
  Config.on ≠ 0#16 ∧ ∀ (s : State) (c : Nat), s.cell c = 0#16 ∨ s.cell c = Config.on

/-! Control flow (spec/41_control_flow.md) -/

/-- R71, R77: 1NNN sets `PC` to `nnn`, BNNN to `V[0] + nnn`, not reduced to 12 bits; nothing else changes. That BNNN adds
`V[0]`, and not the register that its second digit names, is decision D24 (log entry 19, DEDUCED). -/
def Obligations.JumpsSetProgramCounter : Prop :=
  EncodedBy 0xF000#16 0x1000#16 (fun w => .jp (nnnField w)) ∧
  EncodedBy 0xF000#16 0xB000#16 (fun w => .jpV0 (nnnField w)) ∧
  ∀ (nnn : Addr) (s : State),
    (∃ t, exec (.jp nnn) s = .next t ∧ t.pc.toNat = nnn.toNat ∧ UnchangedBut [.pc] s t) ∧
    ∃ t, exec (.jpV0 nnn) s = .next t ∧ t.pc.toNat = (s.getV 0x0#4).toNat + nnn.toNat ∧ UnchangedBut [.pc] s t

/-- R73, R74: 3XNN adds 2 to the advanced `PC` if `V[x]` equals `nn`, 4XNN if it differs; nothing else changes. That the
skip wraps modulo 65536 is decision D2 (log entry 11, DEDUCED). -/
def Obligations.SkipsOnImmediate : Prop :=
  EncodedBy 0xF000#16 0x3000#16 (fun w => .seImm (xField w) (nnField w)) ∧
  EncodedBy 0xF000#16 0x4000#16 (fun w => .sneImm (xField w) (nnField w)) ∧
  ∀ (x : Reg) (nn : Byte) (s : State),
    (∃ t, exec (.seImm x nn) s = .next t ∧ SkipsIf (s.getV x = nn) s t) ∧
    ∃ t, exec (.sneImm x nn) s = .next t ∧ SkipsIf (s.getV x ≠ nn) s t

/-- R75, R76: 5XY0 adds 2 to the advanced `PC` if the two registers are equal, 9XY0 if they differ; nothing else changes.
That the low digit must be 0 is decision D12. -/
def Obligations.SkipsOnRegisterComparison : Prop :=
  EncodedBy 0xF00F#16 0x5000#16 (fun w => .seReg (xField w) (yField w)) ∧
  EncodedBy 0xF00F#16 0x9000#16 (fun w => .sneReg (xField w) (yField w)) ∧
  ∀ (x y : Reg) (s : State),
    (∃ t, exec (.seReg x y) s = .next t ∧ SkipsIf (s.getV x = s.getV y) s t) ∧
    ∃ t, exec (.sneReg x y) s = .next t ∧ SkipsIf (s.getV x ≠ s.getV y) s t

/-- R72: a call stores the advanced `PC` at `SP`, low byte first, adds 2 to `SP`, sets `PC` to `nnn`, and changes nothing
else. The width of `SP` is decision D6. -/
def Obligations.CallPushesReturnAddress : Prop :=
  EncodedBy 0xF000#16 0x2000#16 (fun w => .call (nnnField w)) ∧
  ∀ (nnn : Addr) (s : State), ∃ t, exec (.call nnn) s = .next t ∧ t.pc.toNat = nnn.toNat ∧
    t.sp.toNat = (s.sp.toNat + 2) % 65536 ∧
    StoresBytes s.sp.toNat [BitVec.ofNat 8 (s.pc.toNat % 256), BitVec.ofNat 8 (s.pc.toNat / 256)] s t ∧
    UnchangedBut [.pc, .sp, .mem] s t

/-- R70: a return takes the high byte of `PC` from `SP − 1` and the low byte from `SP − 2`, subtracts 2 from `SP`, and
changes nothing else. The width of `SP` is decision D6. -/
def Obligations.ReturnPopsProgramCounter : Prop :=
  EncodedBy 0xFFFF#16 0x00EE#16 (fun _ => .ret) ∧
  ∀ s : State, ∃ t, exec .ret s = .next t ∧
    t.pc.toNat = (s.byteAt (s.sp - 1#16).toNat).toNat * 256 + (s.byteAt (s.sp - 2#16).toNat).toNat ∧
    t.sp = s.sp - 2#16 ∧ UnchangedBut [.pc, .sp] s t

/-- §8 of the source by R70 and R72: a call whose target holds a return comes back to the instruction after the call, with
`SP` as before, in two steps from any state. -/
def Obligations.CallThenReturnComesBack : Prop :=
  ∀ (s : State) (nnn : Addr), decode (fetchWord s) = .call nnn →
    ∃ t, step s = .next t ∧ (decode (fetchWord t) = .ret →
      ∃ u, step t = .next u ∧ u.pc = s.pc + 2#16 ∧ u.sp = s.sp)

/-! Loads, arithmetic, logic, shifts, random (spec/42_alu.md) -/

/-- R80, R82: 6XNN writes `nn` and 8XY0 writes `V[y]` to `V[x]`; nothing else changes, `VF` neither unless it is `V[x]`. -/
def Obligations.LoadImmediateAndCopy : Prop :=
  EncodedBy 0xF000#16 0x6000#16 (fun w => .ldImm (xField w) (nnField w)) ∧
  EncodedBy 0xF00F#16 0x8000#16 (fun w => .ldReg (xField w) (yField w)) ∧
  ∀ (x y : Reg) (nn : Byte) (s : State),
    (∃ t, exec (.ldImm x nn) s = .next t ∧ WritesReg x nn s t) ∧
    ∃ t, exec (.ldReg x y) s = .next t ∧ WritesReg x (s.getV y) s t

/-- R81, R83 to R85: 7XNN adds modulo 256, 8XY1 to 8XY3 are bitwise; the result goes to `V[x]` and nothing else changes.
That `VF` is left alone is decision D24. -/
def Obligations.AddImmediateAndLogic : Prop :=
  ∀ (x y : Reg) (nn : Byte) (s : State),
    (∃ t, exec (.addImm x nn) s = .next t ∧
      WritesReg x (BitVec.ofNat 8 (((s.getV x).toNat + nn.toNat) % 256)) s t) ∧
    (∃ t, exec (.orReg x y) s = .next t ∧ WritesReg x (s.getV x ||| s.getV y) s t) ∧
    (∃ t, exec (.andReg x y) s = .next t ∧ WritesReg x (s.getV x &&& s.getV y) s t) ∧
    ∃ t, exec (.xorReg x y) s = .next t ∧ WritesReg x (s.getV x ^^^ s.getV y) s t

/-- R86, R87, R89, R92: the sum and the two differences modulo 256, with the carry and the strict comparisons as flags, for
every `x` and `y`; with `x = 15` the result stays and the flag is lost (R68, decision D11). -/
def Obligations.AddAndSubtractWithFlag : Prop :=
  ∀ (x y : Reg) (s : State),
    let a := (s.getV x).toNat
    let b := (s.getV y).toNat
    (∃ t, exec (.addReg x y) s = .next t ∧
      WritesFlagAndReg x (if a + b > 255 then 1#8 else 0#8) (BitVec.ofNat 8 ((a + b) % 256)) s t) ∧
    (∃ t, exec (.subReg x y) s = .next t ∧
      WritesFlagAndReg x (if a > b then 1#8 else 0#8) (BitVec.ofNat 8 (if b ≤ a then a - b else a + 256 - b)) s t) ∧
    ∃ t, exec (.subnReg x y) s = .next t ∧
      WritesFlagAndReg x (if a < b then 1#8 else 0#8) (BitVec.ofNat 8 (if a ≤ b then b - a else b + 256 - a)) s t

/-- R88, R90, R92: the shifts by one of `V[x]` itself, with the bit shifted out as flag, whatever `y` is; with `x = 15` the
result stays and the flag is lost (R68, decision D11; `V[y]` unread, decision D24). -/
def Obligations.ShiftsByOne : Prop :=
  ∀ (x y : Reg) (s : State),
    let a := (s.getV x).toNat
    (∃ t, exec (.shr x y) s = .next t ∧ WritesFlagAndReg x (BitVec.ofNat 8 (a % 2)) (BitVec.ofNat 8 (a / 2)) s t) ∧
    ∃ t, exec (.shl x y) s = .next t ∧
      WritesFlagAndReg x (BitVec.ofNat 8 (a / 128)) (BitVec.ofNat 8 (2 * a % 256)) s t

/-- R91: CXNN writes the step's random byte AND `nn` to `V[x]`: the given byte where the state holds one, and some byte,
unconstrained, where it holds none (R21, decision D10, assumption 3). -/
def Obligations.RandomByteIsMasked : Prop :=
  ∀ (x : Reg) (nn : Byte) (s : State), ∃ rnd : Byte, (∀ b bs, s.rndInputs = b :: bs → rnd = b) ∧
    ∃ t, exec (.rnd x nn) s = .next t ∧ WritesReg x (rnd &&& nn) s t

/-! Index register and memory transfer (spec/43_index_memory.md) -/

/-- R101: ANNN sets `I` to `nnn`, zero-extended, and changes nothing else. -/
def Obligations.LoadIndex : Prop :=
  EncodedBy 0xF000#16 0xA000#16 (fun w => .ldI (nnnField w)) ∧
  ∀ (nnn : Addr) (s : State), ∃ t, exec (.ldI nnn) s = .next t ∧ t.i.toNat = nnn.toNat ∧ UnchangedBut [.i] s t

/-- R102, R103: FX1E adds `V[x]` to `I` modulo 65536 and sets no flag; FX29 sets `I` to `FONT_BASE + V[x] · 5`, with the
whole byte. Decision D24. -/
def Obligations.AddToIndexAndGlyphAddress : Prop :=
  ∀ (x : Reg) (s : State),
    (∃ t, exec (.addI x) s = .next t ∧ t.i.toNat = (s.i.toNat + (s.getV x).toNat) % 65536 ∧ UnchangedBut [.i] s t) ∧
    ∃ t, exec (.ldF x) s = .next t ∧ t.i.toNat = s.params.fontBase.val + (s.getV x).toNat * 5 ∧ UnchangedBut [.i] s t

/-- R104: FX33 stores the hundreds, tens and units of `V[x]` at `I`, `I + 1`, `I + 2`, each modulo 4096, and changes nothing
else (`I` neither: R100, decision D24). -/
def Obligations.DecimalDigitsStored : Prop :=
  ∀ (x : Reg) (s : State), ∃ t, exec (.ldB x) s = .next t ∧
    StoresBytes s.i.toNat [BitVec.ofNat 8 ((s.getV x).toNat / 100), BitVec.ofNat 8 ((s.getV x).toNat / 10 % 10),
      BitVec.ofNat 8 ((s.getV x).toNat % 10)] s t ∧
    UnchangedBut [.mem] s t

/-- R105: FX55 stores `V[0]` to `V[x]` at `(I + k) mod 4096`, and changes nothing else (`I` neither: R100, decision D24). -/
def Obligations.RegistersStored : Prop :=
  ∀ (x : Reg) (s : State), ∃ t, exec (.storeRegs x) s = .next t ∧
    (∀ r : Reg, r.toNat ≤ x.toNat → t.byteAt (s.i.toNat + r.toNat) = s.getV r) ∧
    (∀ a, (∀ k, k ≤ x.toNat → a % 4096 ≠ (s.i.toNat + k) % 4096) → t.byteAt a = s.byteAt a) ∧
    UnchangedBut [.mem] s t

/-- R106: FX65 loads `V[0]` to `V[x]` from `(I + k) mod 4096`, leaves the registers above `x`, and changes nothing else
(`I` neither: R100, decision D24). -/
def Obligations.RegistersLoaded : Prop :=
  ∀ (x : Reg) (s : State), ∃ t, exec (.loadRegs x) s = .next t ∧
    (∀ r : Reg, r.toNat ≤ x.toNat → t.getV r = s.byteAt (s.i.toNat + r.toNat)) ∧
    (∀ r : Reg, x.toNat < r.toNat → t.getV r = s.getV r) ∧ UnchangedBut [.v] s t

/-- §8 of the source by R105 and R106: what FX55 stored, FX65 with the same `x` and `I` loads back into the registers 0 to
`x`, whatever the registers hold meanwhile, from any `I`. -/
def Obligations.StoreThenLoadRoundTrip : Prop :=
  ∀ (x : Reg) (s : State), ∃ t, exec (.storeRegs x) s = .next t ∧
    ∀ u : State, u.i = t.i → (∀ a, u.byteAt a = t.byteAt a) →
      ∃ w, exec (.loadRegs x) u = .next w ∧ ∀ r : Reg, r.toNat ≤ x.toNat → w.getV r = s.getV r

/-- R41: a store is seen by the very next fetch: an FX55 that stores `V[0]` and `V[1]` over the next instruction makes them
the next word, high byte first. -/
def Obligations.StoreSeenByNextFetch : Prop :=
  ∀ (s : State) (x : Reg), decode (fetchWord s) = .storeRegs x → 1 ≤ x.toNat → s.i = s.pc + 2#16 →
    ∃ t, step s = .next t ∧
      (fetchWord t).toNat = (s.getV 0x0#4).toNat * 256 + (s.getV 0x1#4).toNat

/-! Display (spec/44_display.md) -/

/-- R110: 00E0 makes every cell 0 and changes nothing else. That the whole word must match is decision D12; the cells are
held as the lit ones (assumption 6). -/
def Obligations.ClearMakesEveryCellZero : Prop :=
  EncodedBy 0xFFFF#16 0x00E0#16 (fun _ => .cls) ∧
  ∀ s : State, ∃ t, exec .cls s = .next t ∧ (∀ c, t.cell c = 0#16) ∧ UnchangedBut [.disp] s t

/-- R112, R111: DXYN XORs `ON` into exactly the cells a set sprite bit covers, `VF` is 1 if one of them held a bit of `ON`
before and else 0, and nothing else changes. The coordinates are the registers on entry (R68, decision D11). -/
def Obligations.DrawXorsSpriteCells : Prop :=
  ∀ (x y : Reg) (n : Nibble) (s : State), ∃ t, exec (.drw x y n) s = .next t ∧
    (∀ c, (SpriteCovers x y n s c → t.cell c = s.cell c ^^^ Config.on) ∧
      (¬SpriteCovers x y n s c → t.cell c = s.cell c)) ∧
    ((∃ c, SpriteCovers x y n s c ∧ s.cell c &&& Config.on ≠ 0#16) → t.getV 0xF#4 = 1#8) ∧
    ((∀ c, SpriteCovers x y n s c → s.cell c &&& Config.on = 0#16) → t.getV 0xF#4 = 0#8) ∧
    (∀ r : Reg, r ≠ 0xF#4 → t.getV r = s.getV r) ∧ UnchangedBut [.v, .disp] s t

/-- R113: a second draw with the same coordinates, `I` and sprite bytes restores every cell, and it reports a collision
exactly when the first draw lit a cell. The coordinates are the registers on entry (decision D11, log entry 14); the cells
are held as the lit ones (assumption 6). -/
def Obligations.DoubleDrawRestoresDisplay : Prop :=
  ∀ (x y : Reg) (n : Nibble) (s : State), ∃ t, exec (.drw x y n) s = .next t ∧
    ∀ u : State, u.getV x = s.getV x → u.getV y = s.getV y → u.i = s.i →
      (∀ row, row < n.toNat → u.byteAt (s.i.toNat + row) = s.byteAt (s.i.toNat + row)) → (∀ c, u.cell c = t.cell c) →
      ∃ w, exec (.drw x y n) u = .next w ∧ (∀ c, w.cell c = s.cell c) ∧
        (w.getV 0xF#4 = 1#8 ↔ ∃ c, s.cell c = 0#16 ∧ t.cell c = Config.on)

/-! Keypad and timers (spec/45_keypad_timers.md) -/

/-- R120, R121, R20: both key skips ask the same Boolean of `V[x]`: whether the slot holds something other than 0 for a
number below 16 whose slot the step's keys give, and an unconstrained one for a number above 15 (decision D9,
assumption 5) or keys not given (assumption 4). -/
def Obligations.KeySkipsAskPressed : Prop :=
  ∀ (x : Reg) (s : State), ∃ p : Bool,
    (∀ keys rest, s.keyInputs = keys :: rest → ∀ h : (s.getV x).toNat < 16,
      p = decide (keys[(s.getV x).toNat]'h ≠ 0#8)) ∧
    (∃ t, exec (.skp x) s = .next t ∧ SkipsIf (p = true) s t) ∧
    ∃ t, exec (.sknp x) s = .next t ∧ SkipsIf (p = false) s t

/-- R122: FX0A writes the least pressed key's number to `V[x]` if a key is pressed, and takes `PC` back by 2 if none is;
nothing else changes. The slots are the step's keys where the state gives them (assumption 4). -/
def Obligations.KeyWaitTakesLeastKeyOrRewinds : Prop :=
  EncodedBy 0xF0FF#16 0xF00A#16 (fun w => .ldVxK (xField w)) ∧
  ∀ (x : Reg) (s : State),
    (∀ keys rest, s.keyInputs = keys :: rest → ∀ k, ∀ h : k < 16, keySlot s k = keys[k]'h) ∧
    ((∃ k, k < 16 ∧ keySlot s k ≠ 0#8 ∧ (∀ j, j < k → keySlot s j = 0#8) ∧
        ∃ t, exec (.ldVxK x) s = .next t ∧ WritesReg x (BitVec.ofNat 8 k) s t) ∨
      ((∀ k, k < 16 → keySlot s k = 0#8) ∧
        ∃ t, exec (.ldVxK x) s = .next t ∧ t.pc = s.pc - 2#16 ∧ UnchangedBut [.pc] s t))

/-- §8 of the source by R122: while no key is pressed a step of FX0A leaves `PC` and all else but the timers and the inputs
as they are, so that the same word is fetched again. -/
def Obligations.KeyWaitStaysWhileNoKey : Prop :=
  ∀ (s : State) (x : Reg), decode (fetchWord s) = .ldVxK x → (∀ k, k < 16 → keySlot s k = 0#8) →
    ∃ t, step s = .next t ∧ fetchWord t = fetchWord s ∧ t.dt.toNat = s.dt.toNat - 1 ∧
      UnchangedBut [.dt, .st, .inputs] s t

/-- R123 to R125, execute phase: FX07 writes `DT` to `V[x]`, FX15 writes `V[x]` to `DT`, FX18 writes `V[x]` to `ST`; nothing
else changes. The tick that follows is `TimersTickOncePerStep`. -/
def Obligations.TimerReadAndWrites : Prop :=
  ∀ (x : Reg) (s : State),
    (∃ t, exec (.ldVxDt x) s = .next t ∧ WritesReg x s.dt s t) ∧
    (∃ t, exec (.ldDtVx x) s = .next t ∧ t.dt = s.getV x ∧ UnchangedBut [.dt] s t) ∧
    ∃ t, exec (.ldStVx x) s = .next t ∧ t.st = s.getV x ∧ UnchangedBut [.st] s t

/-! Rules about the whole machine -/

/-- R10, R11: a step changes a general register only if its instruction writes that register, as R10's table lists;
`VF` as a flag only for the six instructions of R11 (decision D24). -/
def Obligations.RegistersChangeOnlyWhereListed : Prop :=
  ∀ s : State, ∃ t, step s = .next t ∧
    ∀ r : Reg, mayWriteReg (decode (fetchWord s)) r = false → t.getV r = s.getV r

/-- R12, R14, R17: `I` changes only by ANNN, FX1E and FX29, `SP` only by 2NNN and 00EE, the display only by 00E0 and DXYN
(decision D24). -/
def Obligations.IndexStackDisplayWriters : Prop :=
  ∀ s : State, ∃ t, step s = .next t ∧
    (writesIndex (decode (fetchWord s)) = false → t.i = s.i) ∧
    (writesStackPointer (decode (fetchWord s)) = false → t.sp = s.sp) ∧
    (writesDisplay (decode (fetchWord s)) = false → ∀ c, t.cell c = s.cell c)

/-- R16, R32: a step writes memory only by 2NNN (two bytes at `SP`), FX33 (three at `I`) and FX55 (`x + 1` at `I`), each
address modulo 4096; every other byte reads as before. -/
def Obligations.MemoryChangesOnlyInStoredRange : Prop :=
  ∀ s : State, ∃ t, step s = .next t ∧
    ∀ a, (∀ k, k < (storedRange (decode (fetchWord s)) s).2 →
      a % 4096 ≠ ((storedRange (decode (fetchWord s)) s).1 + k) % 4096) → t.byteAt a = s.byteAt a

/-- R66: a step whose instruction is not EX9E, EXA1 or FX0A does not depend on the keys, and one whose instruction is not
CXNN does not depend on the random byte: with other inputs it gives the same state but for the inputs still to come. -/
def Obligations.InputsMatterOnlyToTheirReaders : Prop :=
  ∀ s : State, ∃ t, step s = .next t ∧
    (readsKeypad (decode (fetchWord s)) = false → ∀ keys : List Keypad,
      step { s with keyInputs := keys } = .next { t with keyInputs := keys.tail }) ∧
    (readsRandom (decode (fetchWord s)) = false → ∀ bytes : List Byte,
      step { s with rndInputs := bytes } = .next { t with rndInputs := bytes.tail })

/-- R60, R66, R42: the inputs that the host gives a step are the ones the step reads, and that step alone: CXNN masks the
given random byte, EX9E and EXA1 skip by the slot of the given vector that `V[x]` numbers (below 16), FX0A takes its least
pressed key and goes on, or stays if every slot is 0, and the plan of the later steps moves on by one. The inputs as fields
are assumptions 3 and 4; a number above 15 is decision D9 and no part of this. -/
def Obligations.StepTakesTheGivenInputs : Prop :=
  ∀ (keys : Keypad) (b : Byte) (s : State), ∃ t, stepWith keys b s = .next t ∧
    (∀ x nn, decode (fetchWord s) = .rnd x nn → t.getV x = b &&& nn) ∧
    (∀ x, decode (fetchWord s) = .skp x → ∀ h : (s.getV x).toNat < 16,
      t.pc = if keys[(s.getV x).toNat]'h ≠ 0#8 then s.pc + 4#16 else s.pc + 2#16) ∧
    (∀ x, decode (fetchWord s) = .sknp x → ∀ h : (s.getV x).toNat < 16,
      t.pc = if keys[(s.getV x).toNat]'h ≠ 0#8 then s.pc + 2#16 else s.pc + 4#16) ∧
    (∀ x, decode (fetchWord s) = .ldVxK x → ∀ k, ∀ h : k < 16, keys[k]'h ≠ 0#8 →
      (∀ j, ∀ hj : j < k, keys[j]'(Nat.lt_trans hj h) = 0#8) → t.getV x = BitVec.ofNat 8 k ∧ t.pc = s.pc + 2#16) ∧
    (∀ x, decode (fetchWord s) = .ldVxK x → (∀ k, ∀ h : k < 16, keys[k]'h = 0#8) →
      t.pc = s.pc ∧ t.getV x = s.getV x) ∧
    t.keyInputs = s.keyInputs.tail ∧ t.rndInputs = s.rndInputs.tail

/-- The canonical forms of the Memory Image and the Display Surface hold at reset, whatever the parameters. -/
def Obligations.InvariantAtReset : Prop := Inv State.reset ∧ ∀ p : Params, Inv (State.resetWith p)

/-- From every state that meets it, a step keeps the invariant: memory entries in rising order below 4096 and none equal to
what its address reads as unlisted, lit cells in rising order below 2048 (R16, R17). -/
def Obligations.StepKeepsInvariant : Prop :=
  ∀ s : State, Inv s → ∃ t, step s = .next t ∧ Inv t

/-- R154: the host's loop stops where the 16-bit `PC` is past `PROG_BASE + LEN`, or where its fuel ends, and it has taken
exactly the engine's steps, none of them from a state past the end. The strict comparison is decision D15. -/
def Obligations.HostRunStopsPastEnd : Prop :=
  ∀ (len fuel : Nat) (s : State), ∃ t k, hostRun len fuel s = .next t ∧ k ≤ fuel ∧ Sys2Proof.core.run k s = .next t ∧
    (k < fuel → s.params.progBase.val + len < t.pc.toNat) ∧
    ∀ j u, j < k → Sys2Proof.core.run j s = .next u → u.pc.toNat ≤ s.params.progBase.val + len

/-! Fields, parameters and the host's keys (spec/00_scope.md, spec/30_encoding.md) -/

/-- R51: the six fields of a word are its bit ranges, as numbers; `nn` is `y : n`, `nnn` is `x : y : n`, and the word is
`op x y n`. -/
def Obligations.FieldsAreBitRanges : Prop :=
  ∀ w : Word, (opField w).toNat = w.toNat / 4096 ∧ (xField w).toNat = w.toNat / 256 % 16 ∧
    (yField w).toNat = w.toNat / 16 % 16 ∧ (nField w).toNat = w.toNat % 16 ∧ (nnField w).toNat = w.toNat % 256 ∧
    (nnnField w).toNat = w.toNat % 4096 ∧ nnField w = yField w ++ nField w ∧
    nnnField w = xField w ++ yField w ++ nField w ∧ w = opField w ++ xField w ++ yField w ++ nField w

/-- R152: a program that fits in memory and whose region meets the font's is refused by name, given no meaning (D19,
assumption 8). With the suggested parameters no program is. -/
def Obligations.LaunchRefusesFontOverlap : Prop :=
  (∀ (p : Params) (program : List Byte), program ≠ [] → program.length ≤ 4096 - p.progBase.val →
    p.progBase.val < p.fontBase.val + 80 → p.fontBase.val < p.progBase.val + program.length →
    launchWith p program = .refused .programOverlapsFont) ∧
  ∀ program : List Byte, launch program ≠ .refused .programOverlapsFont

/-- R23: the parameters are no state: no instruction and no step changes them. Their place in the state is assumption 26. -/
def Obligations.StepKeepsParameters : Prop :=
  (∀ (i : Instr) (s : State), ∃ t, exec i s = .next t ∧ t.params = s.params) ∧
  ∀ s : State, ∃ t, step s = .next t ∧ t.params = s.params

/-- R23, R5: `PROG_BASE`, `STACK_BASE`, `STACK_SIZE` and `KEY_DOWN` are read by no step: under any other parameters with the
same font at the same base, a step gives the same state but for the parameters. (The font's bytes are what unlisted memory
reads as: assumption 9.) -/
def Obligations.StepReadsOnlyFontParameters : Prop :=
  ∀ (s : State) (q : Params), q.fontBase = s.params.fontBase → q.font = s.params.font →
    ∃ t, step s = .next t ∧ step { s with params := q } = .next { t with params := q }

/-- R137, R20: the vector a host leaves that holds down the keys of a list holds `KEY_DOWN` in their slots and 0 in the
others, and exactly those keys are pressed at the next step. The test for 0 is decision D8 (assumption 13). -/
def Obligations.HostKeysArePressed : Prop :=
  ∀ (p : Params) (down : List Nat) (s : State),
    (∀ k, ∀ h : k < 16, (hostKeys p down)[k]'h = if k ∈ down then p.keyDown.val else 0#8) ∧
    ∀ k : Byte, k.toNat < 16 → (pressed (s.setKeys (hostKeys p down)) k = true ↔ k.toNat ∈ down)

/-- R5, R20: `KEY_DOWN` is not observable by any instruction: a step with the same keys held down, each slot at another
non-zero byte, gives the same state but for that parameter. The test for 0 is decision D8 (assumption 13). -/
def Obligations.KeyDownIsNotObservable : Prop :=
  ∀ (s : State) (d : { b : Byte // b ≠ 0#8 }) (down : List Nat) (b : Byte),
    ∃ t, stepWith (hostKeys s.params down) b s = .next t ∧
      stepWith (hostKeys { s.params with keyDown := d } down) b { s with params := { s.params with keyDown := d } } =
        .next { t with params := { t.params with keyDown := d } }

/-- R71: 1NNN sets `PC` to `nnn`, the upper four bits 0, and writes nothing else; a jump to its own address fetches itself
again, each time with a tick of the timers. -/
def Obligations.JumpSetsAddress : Prop :=
  EncodedBy 0xF000#16 0x1000#16 (fun w => .jp (nnnField w)) ∧
  (∀ (nnn : Addr) (s : State), ∃ t, exec (.jp nnn) s = .next t ∧ t.pc.toNat = nnn.toNat ∧ UnchangedBut [.pc] s t) ∧
  ∀ (nnn : Addr) (s : State), decode (fetchWord s) = .jp nnn → s.pc.toNat = nnn.toNat →
    ∃ t, step s = .next t ∧ fetchWord t = fetchWord s ∧ t.dt.toNat = s.dt.toNat - 1 ∧ t.st.toNat = s.st.toNat - 1 ∧
      UnchangedBut [.dt, .st, .inputs] s t
end

