-- ==== Sys2Proof/Laws/Config.lean ====
section
/-! SUPPORT. The numbers of the parameters of spec/00_scope.md R4, so that no later proof unfolds a name for a number. -/

namespace Sys2Proof.Config

theorem memSize_eq : memSize = 4096 := rfl
@[simp] theorem numRegs_eq : numRegs = 16 := rfl
@[simp] theorem xlen_eq : xlen = 8 := rfl
@[simp] theorem iBits_eq : iBits = 16 := rfl
@[simp] theorem pcBits_eq : pcBits = 16 := rfl
@[simp] theorem spBits_eq : spBits = 16 := rfl
@[simp] theorem timerBits_eq : timerBits = 8 := rfl
theorem dispW_eq : dispW = 64 := rfl
theorem dispH_eq : dispH = 32 := rfl
theorem dispCells_eq : dispCells = 2048 := rfl
@[simp] theorem cellBits_eq : cellBits = 16 := rfl
@[simp] theorem numKeys_eq : numKeys = 16 := rfl
@[simp] theorem fontGlyphs_eq : fontGlyphs = 16 := rfl
@[simp] theorem glyphBytes_eq : glyphBytes = 5 := rfl
@[simp] theorem fontBytes_eq : fontBytes = 80 := rfl
@[simp] theorem ilen_eq : ilen = 2 := rfl

end Sys2Proof.Config
end

