-- ==== Sys2Proof/Laws/Decode.lean ====
section
/-! SUPPORT. The fields of a word and the words of fields (R51, R52): each gives the other back, and what the masks of R54
leave of a word. -/

namespace Sys2Proof

@[simp] theorem opField_wordA (op : Nibble) (nnn : Addr) : opField (wordA op nnn) = op := by
  apply BitVec.eq_of_getLsbD_eq; intro k hk
  simp [opField, wordA]; grind

@[simp] theorem nnnField_wordA (op : Nibble) (nnn : Addr) : nnnField (wordA op nnn) = nnn := by
  apply BitVec.eq_of_getLsbD_eq; intro k hk
  simp [nnnField, wordA]; grind

@[simp] theorem xField_wordA (op : Nibble) (nnn : Addr) : xField (wordA op nnn) = nnn.extractLsb' 8 4 := by
  apply BitVec.eq_of_getLsbD_eq; intro k hk
  simp [xField, wordA]; grind

@[simp] theorem yField_wordA (op : Nibble) (nnn : Addr) : yField (wordA op nnn) = nnn.extractLsb' 4 4 := by
  apply BitVec.eq_of_getLsbD_eq; intro k hk
  simp [yField, wordA]; grind

@[simp] theorem nField_wordA (op : Nibble) (nnn : Addr) : nField (wordA op nnn) = nnn.extractLsb' 0 4 := by
  apply BitVec.eq_of_getLsbD_eq; intro k hk
  simp [nField, wordA]; grind

@[simp] theorem nnField_wordA (op : Nibble) (nnn : Addr) : nnField (wordA op nnn) = nnn.extractLsb' 0 8 := by
  apply BitVec.eq_of_getLsbD_eq; intro k hk
  simp [nnField, wordA]; grind

@[simp] theorem opField_wordXI (op : Nibble) (x : Reg) (nn : Byte) : opField (wordXI op x nn) = op := by
  apply BitVec.eq_of_getLsbD_eq; intro k hk
  simp [opField, wordXI]; grind

@[simp] theorem xField_wordXI (op : Nibble) (x : Reg) (nn : Byte) : xField (wordXI op x nn) = x := by
  apply BitVec.eq_of_getLsbD_eq; intro k hk
  simp [xField, wordXI]; grind

@[simp] theorem nnField_wordXI (op : Nibble) (x : Reg) (nn : Byte) : nnField (wordXI op x nn) = nn := by
  apply BitVec.eq_of_getLsbD_eq; intro k hk
  simp [nnField, wordXI]; grind

@[simp] theorem nField_wordXI (op : Nibble) (x : Reg) (nn : Byte) : nField (wordXI op x nn) = nn.extractLsb' 0 4 := by
  apply BitVec.eq_of_getLsbD_eq; intro k hk
  simp [nField, wordXI]; grind

@[simp] theorem opField_wordXYN (op : Nibble) (x y : Reg) (n : Nibble) : opField (wordXYN op x y n) = op := by
  apply BitVec.eq_of_getLsbD_eq; intro k hk
  simp [opField, wordXYN]; grind

@[simp] theorem xField_wordXYN (op : Nibble) (x y : Reg) (n : Nibble) : xField (wordXYN op x y n) = x := by
  apply BitVec.eq_of_getLsbD_eq; intro k hk
  simp [xField, wordXYN]; grind

@[simp] theorem yField_wordXYN (op : Nibble) (x y : Reg) (n : Nibble) : yField (wordXYN op x y n) = y := by
  apply BitVec.eq_of_getLsbD_eq; intro k hk
  simp [yField, wordXYN]; grind

@[simp] theorem nField_wordXYN (op : Nibble) (x y : Reg) (n : Nibble) : nField (wordXYN op x y n) = n := by
  apply BitVec.eq_of_getLsbD_eq; intro k hk
  simp [nField, wordXYN]; grind

/-- A word is its family and its 12-bit operand (R51). -/
theorem wordA_fields (w : Word) : wordA (opField w) (nnnField w) = w := by
  apply BitVec.eq_of_getLsbD_eq; intro k hk
  simp [opField, nnnField, wordA]; grind

/-- A word is its family, its register and its low byte (R51). -/
theorem wordXI_fields (w : Word) : wordXI (opField w) (xField w) (nnField w) = w := by
  apply BitVec.eq_of_getLsbD_eq; intro k hk
  simp [opField, xField, nnField, wordXI]; grind

/-- A word is its four digits (R51). -/
theorem wordXYN_fields (w : Word) : wordXYN (opField w) (xField w) (yField w) (nField w) = w := by
  apply BitVec.eq_of_getLsbD_eq; intro k hk
  simp [opField, xField, yField, nField, wordXYN]; grind

/-- AND goes field by field. -/
theorem and_wordA (a b : Nibble) (c d : Addr) : wordA a c &&& wordA b d = wordA (a &&& b) (c &&& d) := BitVec.and_append

theorem and_wordXI (a b : Nibble) (c d : Reg) (e f : Byte) :
    wordXI a c e &&& wordXI b d f = wordXI (a &&& b) (c &&& d) (e &&& f) :=
  (and_wordA ..).trans (congrArg (wordA _) BitVec.and_append)

theorem and_wordXYN (a b : Nibble) (c d e f : Reg) (g h : Nibble) :
    wordXYN a c e g &&& wordXYN b d f h = wordXYN (a &&& b) (c &&& d) (e &&& f) (g &&& h) :=
  (and_wordXI ..).trans (congrArg (wordXI _ _) BitVec.and_append)

/-- The mask of formats `A`, `XI` and `XYN` leaves the family. -/
theorem and_F000_eq_iff (w : Word) (op : Nibble) : w &&& 0xF000#16 = wordA op 0#12 ↔ opField w = op := by
  have h : w &&& 0xF000#16 = wordA (opField w) 0#12 := by
    conv_lhs => rw [← wordA_fields w]
    rw [show (0xF000#16 : Word) = wordA (BitVec.allOnes 4) 0#12 by decide]
    rw [and_wordA]; simp only [BitVec.and_allOnes, BitVec.and_zero]
  rw [h]
  exact ⟨fun h => by simpa using congrArg opField h, fun h => by rw [h]⟩

/-- The mask of format `XY` leaves the family and the low digit. -/
theorem and_F00F_eq_iff (w : Word) (op n : Nibble) :
    w &&& 0xF00F#16 = wordXYN op 0#4 0#4 n ↔ opField w = op ∧ nField w = n := by
  have h : w &&& 0xF00F#16 = wordXYN (opField w) 0#4 0#4 (nField w) := by
    conv_lhs => rw [← wordXYN_fields w]
    rw [show (0xF00F#16 : Word) = wordXYN (BitVec.allOnes 4) 0#4 0#4 (BitVec.allOnes 4) by decide]
    rw [and_wordXYN]; simp only [BitVec.and_allOnes, BitVec.and_zero]
  rw [h]
  refine ⟨fun h => ⟨by simpa using congrArg opField h, by simpa using congrArg nField h⟩, fun h => by rw [h.1, h.2]⟩

/-- The mask of format `X` leaves the family and the low byte. -/
theorem and_F0FF_eq_iff (w : Word) (op : Nibble) (nn : Byte) :
    w &&& 0xF0FF#16 = wordXI op 0#4 nn ↔ opField w = op ∧ nnField w = nn := by
  have h : w &&& 0xF0FF#16 = wordXI (opField w) 0#4 (nnField w) := by
    conv_lhs => rw [← wordXI_fields w]
    rw [show (0xF0FF#16 : Word) = wordXI (BitVec.allOnes 4) 0#4 (BitVec.allOnes 8) by decide]
    rw [and_wordXI]; simp only [BitVec.and_allOnes, BitVec.and_zero]
  rw [h]
  refine ⟨fun h => ⟨by simpa using congrArg opField h, by simpa using congrArg nnField h⟩, fun h => by rw [h.1, h.2]⟩

/-- The two bytes of a word give the word back (R33). -/
@[simp] theorem wordOfBytes_hi_lo (w : Word) : wordOfBytes (hiByte w) (loByte w) = w := by
  apply BitVec.eq_of_getLsbD_eq; intro k hk
  simp [wordOfBytes, hiByte, loByte]; grind

@[simp] theorem hiByte_wordOfBytes (b0 b1 : Byte) : hiByte (wordOfBytes b0 b1) = b0 := by
  apply BitVec.eq_of_getLsbD_eq; intro k hk
  simp [wordOfBytes, hiByte]; grind

@[simp] theorem loByte_wordOfBytes (b0 b1 : Byte) : loByte (wordOfBytes b0 b1) = b1 := by
  apply BitVec.eq_of_getLsbD_eq; intro k hk
  simp [wordOfBytes, loByte]; grind

/-- `b0 : b1` is `b0 · 256 + b1` (R33). -/
theorem wordOfBytes_toNat (b0 b1 : Byte) : (wordOfBytes b0 b1).toNat = b0.toNat * 256 + b1.toNat := by
  have h1 := b1.isLt
  simp only [wordOfBytes, BitVec.toNat_append, Nat.shiftLeft_eq]
  rw [Nat.mul_comm, ← Nat.two_pow_add_eq_or_of_lt h1]

end Sys2Proof

namespace Sys2Proof

/-- The sixteen families, for a case split on the first digit. -/
theorem nibble_cases (d : Nibble) :
    d = 0x0#4 ∨ d = 0x1#4 ∨ d = 0x2#4 ∨ d = 0x3#4 ∨ d = 0x4#4 ∨ d = 0x5#4 ∨ d = 0x6#4 ∨ d = 0x7#4 ∨ d = 0x8#4 ∨
      d = 0x9#4 ∨ d = 0xA#4 ∨ d = 0xB#4 ∨ d = 0xC#4 ∨ d = 0xD#4 ∨ d = 0xE#4 ∨ d = 0xF#4 := by
  revert d; decide

section
variable {w : Word}

/-! The decoder, family by family (R54, R63). -/

theorem decode_op0 (h : opField w = 0x0#4) : decode w = decodeFamily0 w := by simp [decode, h]
theorem decode_op1 (h : opField w = 0x1#4) : decode w = .jp (nnnField w) := by simp [decode, h]
theorem decode_op2 (h : opField w = 0x2#4) : decode w = .call (nnnField w) := by simp [decode, h]
theorem decode_op3 (h : opField w = 0x3#4) : decode w = .seImm (xField w) (nnField w) := by simp [decode, h]
theorem decode_op4 (h : opField w = 0x4#4) : decode w = .sneImm (xField w) (nnField w) := by simp [decode, h]
theorem decode_op5 (h : opField w = 0x5#4) :
    decode w = if nField w = 0x0#4 then .seReg (xField w) (yField w) else .nop w := by simp [decode, h]
theorem decode_op6 (h : opField w = 0x6#4) : decode w = .ldImm (xField w) (nnField w) := by simp [decode, h]
theorem decode_op7 (h : opField w = 0x7#4) : decode w = .addImm (xField w) (nnField w) := by simp [decode, h]
theorem decode_op8 (h : opField w = 0x8#4) : decode w = decodeFamily8 w := by simp [decode, h]
theorem decode_op9 (h : opField w = 0x9#4) :
    decode w = if nField w = 0x0#4 then .sneReg (xField w) (yField w) else .nop w := by simp [decode, h]
theorem decode_opA (h : opField w = 0xA#4) : decode w = .ldI (nnnField w) := by simp [decode, h]
theorem decode_opB (h : opField w = 0xB#4) : decode w = .jpV0 (nnnField w) := by simp [decode, h]
theorem decode_opC (h : opField w = 0xC#4) : decode w = .rnd (xField w) (nnField w) := by simp [decode, h]
theorem decode_opD (h : opField w = 0xD#4) : decode w = .drw (xField w) (yField w) (nField w) := by simp [decode, h]
theorem decode_opE (h : opField w = 0xE#4) : decode w = decodeFamilyE w := by simp [decode, h]
theorem decode_opF (h : opField w = 0xF#4) : decode w = decodeFamilyF w := by simp [decode, h]

/-- 00E0 by its fields (R54). -/
theorem eq_00E0_iff : w = 0x00E0#16 ↔ opField w = 0x0#4 ∧ xField w = 0x0#4 ∧ nnField w = 0xE0#8 :=
  ⟨by rintro rfl; decide, fun ⟨a, b, c⟩ => by rw [← wordXI_fields w, a, b, c]; decide⟩

/-- 00EE by its fields (R54). -/
theorem eq_00EE_iff : w = 0x00EE#16 ↔ opField w = 0x0#4 ∧ xField w = 0x0#4 ∧ nnField w = 0xEE#8 :=
  ⟨by rintro rfl; decide, fun ⟨a, b, c⟩ => by rw [← wordXI_fields w, a, b, c]; decide⟩

/-- R56's list, with the fields of R51 by name. -/
theorem unmatchedWord_eq : unmatchedWord w =
    (match opField w with
    | 0x0#4 => !(xField w == 0x0#4 && (nnField w == 0xE0#8 || nnField w == 0xEE#8))
    | 0x5#4 => !(nField w == 0x0#4)
    | 0x8#4 => nField w == 0x8#4 || nField w == 0x9#4 || nField w == 0xA#4 || nField w == 0xB#4 || nField w == 0xC#4 ||
        nField w == 0xD#4 || nField w == 0xF#4
    | 0x9#4 => !(nField w == 0x0#4)
    | 0xE#4 => !(nnField w == 0x9E#8 || nnField w == 0xA1#8)
    | 0xF#4 => !(nnField w == 0x07#8 || nnField w == 0x0A#8 || nnField w == 0x15#8 || nnField w == 0x18#8 ||
        nnField w == 0x1E#8 || nnField w == 0x29#8 || nnField w == 0x33#8 || nnField w == 0x55#8 || nnField w == 0x65#8)
    | _ => false) := rfl

end

end Sys2Proof
end

