-- ==== Sys2Proof/Laws/State.lean ====
section
/-! SUPPORT. One lemma per field per update of the state, each true by definition, so that no later proof unfolds a record
update. -/

namespace Sys2Proof.Machine

@[simp] theorem pcIlen_eq : pcIlen = 2#16 := rfl

variable (s : State)

/-! `setV` -/

@[simp] theorem State.setV_v (x : Reg) (b : RegByte) : (s.setV x b).v = s.v.set x.toNat b x.isLt := rfl
@[simp] theorem State.setV_i (x : Reg) (b : RegByte) : (s.setV x b).i = s.i := rfl
@[simp] theorem State.setV_pc (x : Reg) (b : RegByte) : (s.setV x b).pc = s.pc := rfl
@[simp] theorem State.setV_sp (x : Reg) (b : RegByte) : (s.setV x b).sp = s.sp := rfl
@[simp] theorem State.setV_dt (x : Reg) (b : RegByte) : (s.setV x b).dt = s.dt := rfl
@[simp] theorem State.setV_st (x : Reg) (b : RegByte) : (s.setV x b).st = s.st := rfl
@[simp] theorem State.setV_mem (x : Reg) (b : RegByte) : (s.setV x b).mem = s.mem := rfl
@[simp] theorem State.setV_disp (x : Reg) (b : RegByte) : (s.setV x b).disp = s.disp := rfl
@[simp] theorem State.setV_keyInputs (x : Reg) (b : RegByte) : (s.setV x b).keyInputs = s.keyInputs := rfl
@[simp] theorem State.setV_rndInputs (x : Reg) (b : RegByte) : (s.setV x b).rndInputs = s.rndInputs := rfl
@[simp] theorem State.setV_steps (x : Reg) (b : RegByte) : (s.setV x b).steps = s.steps := rfl
@[simp] theorem State.setV_params (x : Reg) (b : RegByte) : (s.setV x b).params = s.params := rfl
@[simp] theorem State.setV_byteAt (x : Reg) (b : RegByte) (a : Nat) : (s.setV x b).byteAt a = s.byteAt a := rfl
@[simp] theorem State.setV_cell (x : Reg) (b : RegByte) (c : Nat) : (s.setV x b).cell c = s.cell c := rfl

/-! `setI` -/

@[simp] theorem State.setI_v (w : IndexWord) : (s.setI w).v = s.v := rfl
@[simp] theorem State.setI_i (w : IndexWord) : (s.setI w).i = w := rfl
@[simp] theorem State.setI_pc (w : IndexWord) : (s.setI w).pc = s.pc := rfl
@[simp] theorem State.setI_sp (w : IndexWord) : (s.setI w).sp = s.sp := rfl
@[simp] theorem State.setI_dt (w : IndexWord) : (s.setI w).dt = s.dt := rfl
@[simp] theorem State.setI_st (w : IndexWord) : (s.setI w).st = s.st := rfl
@[simp] theorem State.setI_mem (w : IndexWord) : (s.setI w).mem = s.mem := rfl
@[simp] theorem State.setI_disp (w : IndexWord) : (s.setI w).disp = s.disp := rfl
@[simp] theorem State.setI_keyInputs (w : IndexWord) : (s.setI w).keyInputs = s.keyInputs := rfl
@[simp] theorem State.setI_rndInputs (w : IndexWord) : (s.setI w).rndInputs = s.rndInputs := rfl
@[simp] theorem State.setI_steps (w : IndexWord) : (s.setI w).steps = s.steps := rfl
@[simp] theorem State.setI_params (w : IndexWord) : (s.setI w).params = s.params := rfl
@[simp] theorem State.setI_getV (w : IndexWord) (r : Reg) : (s.setI w).getV r = s.getV r := rfl
@[simp] theorem State.setI_byteAt (w : IndexWord) (a : Nat) : (s.setI w).byteAt a = s.byteAt a := rfl
@[simp] theorem State.setI_cell (w : IndexWord) (c : Nat) : (s.setI w).cell c = s.cell c := rfl

/-! `setPc` -/

@[simp] theorem State.setPc_v (w : PcWord) : (s.setPc w).v = s.v := rfl
@[simp] theorem State.setPc_i (w : PcWord) : (s.setPc w).i = s.i := rfl
@[simp] theorem State.setPc_pc (w : PcWord) : (s.setPc w).pc = w := rfl
@[simp] theorem State.setPc_sp (w : PcWord) : (s.setPc w).sp = s.sp := rfl
@[simp] theorem State.setPc_dt (w : PcWord) : (s.setPc w).dt = s.dt := rfl
@[simp] theorem State.setPc_st (w : PcWord) : (s.setPc w).st = s.st := rfl
@[simp] theorem State.setPc_mem (w : PcWord) : (s.setPc w).mem = s.mem := rfl
@[simp] theorem State.setPc_disp (w : PcWord) : (s.setPc w).disp = s.disp := rfl
@[simp] theorem State.setPc_keyInputs (w : PcWord) : (s.setPc w).keyInputs = s.keyInputs := rfl
@[simp] theorem State.setPc_rndInputs (w : PcWord) : (s.setPc w).rndInputs = s.rndInputs := rfl
@[simp] theorem State.setPc_steps (w : PcWord) : (s.setPc w).steps = s.steps := rfl
@[simp] theorem State.setPc_params (w : PcWord) : (s.setPc w).params = s.params := rfl
@[simp] theorem State.setPc_getV (w : PcWord) (r : Reg) : (s.setPc w).getV r = s.getV r := rfl
@[simp] theorem State.setPc_byteAt (w : PcWord) (a : Nat) : (s.setPc w).byteAt a = s.byteAt a := rfl
@[simp] theorem State.setPc_cell (w : PcWord) (c : Nat) : (s.setPc w).cell c = s.cell c := rfl

/-! `setSp` -/

@[simp] theorem State.setSp_v (w : SpWord) : (s.setSp w).v = s.v := rfl
@[simp] theorem State.setSp_i (w : SpWord) : (s.setSp w).i = s.i := rfl
@[simp] theorem State.setSp_pc (w : SpWord) : (s.setSp w).pc = s.pc := rfl
@[simp] theorem State.setSp_sp (w : SpWord) : (s.setSp w).sp = w := rfl
@[simp] theorem State.setSp_dt (w : SpWord) : (s.setSp w).dt = s.dt := rfl
@[simp] theorem State.setSp_st (w : SpWord) : (s.setSp w).st = s.st := rfl
@[simp] theorem State.setSp_mem (w : SpWord) : (s.setSp w).mem = s.mem := rfl
@[simp] theorem State.setSp_disp (w : SpWord) : (s.setSp w).disp = s.disp := rfl
@[simp] theorem State.setSp_keyInputs (w : SpWord) : (s.setSp w).keyInputs = s.keyInputs := rfl
@[simp] theorem State.setSp_rndInputs (w : SpWord) : (s.setSp w).rndInputs = s.rndInputs := rfl
@[simp] theorem State.setSp_steps (w : SpWord) : (s.setSp w).steps = s.steps := rfl
@[simp] theorem State.setSp_params (w : SpWord) : (s.setSp w).params = s.params := rfl
@[simp] theorem State.setSp_getV (w : SpWord) (r : Reg) : (s.setSp w).getV r = s.getV r := rfl
@[simp] theorem State.setSp_byteAt (w : SpWord) (a : Nat) : (s.setSp w).byteAt a = s.byteAt a := rfl
@[simp] theorem State.setSp_cell (w : SpWord) (c : Nat) : (s.setSp w).cell c = s.cell c := rfl

/-! `setDt` -/

@[simp] theorem State.setDt_v (b : TimerByte) : (s.setDt b).v = s.v := rfl
@[simp] theorem State.setDt_i (b : TimerByte) : (s.setDt b).i = s.i := rfl
@[simp] theorem State.setDt_pc (b : TimerByte) : (s.setDt b).pc = s.pc := rfl
@[simp] theorem State.setDt_sp (b : TimerByte) : (s.setDt b).sp = s.sp := rfl
@[simp] theorem State.setDt_dt (b : TimerByte) : (s.setDt b).dt = b := rfl
@[simp] theorem State.setDt_st (b : TimerByte) : (s.setDt b).st = s.st := rfl
@[simp] theorem State.setDt_mem (b : TimerByte) : (s.setDt b).mem = s.mem := rfl
@[simp] theorem State.setDt_disp (b : TimerByte) : (s.setDt b).disp = s.disp := rfl
@[simp] theorem State.setDt_keyInputs (b : TimerByte) : (s.setDt b).keyInputs = s.keyInputs := rfl
@[simp] theorem State.setDt_rndInputs (b : TimerByte) : (s.setDt b).rndInputs = s.rndInputs := rfl
@[simp] theorem State.setDt_steps (b : TimerByte) : (s.setDt b).steps = s.steps := rfl
@[simp] theorem State.setDt_params (b : TimerByte) : (s.setDt b).params = s.params := rfl
@[simp] theorem State.setDt_getV (b : TimerByte) (r : Reg) : (s.setDt b).getV r = s.getV r := rfl
@[simp] theorem State.setDt_byteAt (b : TimerByte) (a : Nat) : (s.setDt b).byteAt a = s.byteAt a := rfl
@[simp] theorem State.setDt_cell (b : TimerByte) (c : Nat) : (s.setDt b).cell c = s.cell c := rfl

/-! `setSt` -/

@[simp] theorem State.setSt_v (b : TimerByte) : (s.setSt b).v = s.v := rfl
@[simp] theorem State.setSt_i (b : TimerByte) : (s.setSt b).i = s.i := rfl
@[simp] theorem State.setSt_pc (b : TimerByte) : (s.setSt b).pc = s.pc := rfl
@[simp] theorem State.setSt_sp (b : TimerByte) : (s.setSt b).sp = s.sp := rfl
@[simp] theorem State.setSt_dt (b : TimerByte) : (s.setSt b).dt = s.dt := rfl
@[simp] theorem State.setSt_st (b : TimerByte) : (s.setSt b).st = b := rfl
@[simp] theorem State.setSt_mem (b : TimerByte) : (s.setSt b).mem = s.mem := rfl
@[simp] theorem State.setSt_disp (b : TimerByte) : (s.setSt b).disp = s.disp := rfl
@[simp] theorem State.setSt_keyInputs (b : TimerByte) : (s.setSt b).keyInputs = s.keyInputs := rfl
@[simp] theorem State.setSt_rndInputs (b : TimerByte) : (s.setSt b).rndInputs = s.rndInputs := rfl
@[simp] theorem State.setSt_steps (b : TimerByte) : (s.setSt b).steps = s.steps := rfl
@[simp] theorem State.setSt_params (b : TimerByte) : (s.setSt b).params = s.params := rfl
@[simp] theorem State.setSt_getV (b : TimerByte) (r : Reg) : (s.setSt b).getV r = s.getV r := rfl
@[simp] theorem State.setSt_byteAt (b : TimerByte) (a : Nat) : (s.setSt b).byteAt a = s.byteAt a := rfl
@[simp] theorem State.setSt_cell (b : TimerByte) (c : Nat) : (s.setSt b).cell c = s.cell c := rfl

/-! `setMem` -/

@[simp] theorem State.setMem_v (m : Memory) : (s.setMem m).v = s.v := rfl
@[simp] theorem State.setMem_i (m : Memory) : (s.setMem m).i = s.i := rfl
@[simp] theorem State.setMem_pc (m : Memory) : (s.setMem m).pc = s.pc := rfl
@[simp] theorem State.setMem_sp (m : Memory) : (s.setMem m).sp = s.sp := rfl
@[simp] theorem State.setMem_dt (m : Memory) : (s.setMem m).dt = s.dt := rfl
@[simp] theorem State.setMem_st (m : Memory) : (s.setMem m).st = s.st := rfl
@[simp] theorem State.setMem_mem (m : Memory) : (s.setMem m).mem = m := rfl
@[simp] theorem State.setMem_disp (m : Memory) : (s.setMem m).disp = s.disp := rfl
@[simp] theorem State.setMem_keyInputs (m : Memory) : (s.setMem m).keyInputs = s.keyInputs := rfl
@[simp] theorem State.setMem_rndInputs (m : Memory) : (s.setMem m).rndInputs = s.rndInputs := rfl
@[simp] theorem State.setMem_steps (m : Memory) : (s.setMem m).steps = s.steps := rfl
@[simp] theorem State.setMem_params (m : Memory) : (s.setMem m).params = s.params := rfl
@[simp] theorem State.setMem_getV (m : Memory) (r : Reg) : (s.setMem m).getV r = s.getV r := rfl
@[simp] theorem State.setMem_cell (m : Memory) (c : Nat) : (s.setMem m).cell c = s.cell c := rfl

/-! `storeBytes` -/

@[simp] theorem State.storeBytes_v (a : Nat) (bs : List Byte) : (s.storeBytes a bs).v = s.v := rfl
@[simp] theorem State.storeBytes_i (a : Nat) (bs : List Byte) : (s.storeBytes a bs).i = s.i := rfl
@[simp] theorem State.storeBytes_pc (a : Nat) (bs : List Byte) : (s.storeBytes a bs).pc = s.pc := rfl
@[simp] theorem State.storeBytes_sp (a : Nat) (bs : List Byte) : (s.storeBytes a bs).sp = s.sp := rfl
@[simp] theorem State.storeBytes_dt (a : Nat) (bs : List Byte) : (s.storeBytes a bs).dt = s.dt := rfl
@[simp] theorem State.storeBytes_st (a : Nat) (bs : List Byte) : (s.storeBytes a bs).st = s.st := rfl
@[simp] theorem State.storeBytes_disp (a : Nat) (bs : List Byte) : (s.storeBytes a bs).disp = s.disp := rfl
@[simp] theorem State.storeBytes_keyInputs (a : Nat) (bs : List Byte) : (s.storeBytes a bs).keyInputs = s.keyInputs := rfl
@[simp] theorem State.storeBytes_rndInputs (a : Nat) (bs : List Byte) : (s.storeBytes a bs).rndInputs = s.rndInputs := rfl
@[simp] theorem State.storeBytes_steps (a : Nat) (bs : List Byte) : (s.storeBytes a bs).steps = s.steps := rfl
@[simp] theorem State.storeBytes_params (a : Nat) (bs : List Byte) : (s.storeBytes a bs).params = s.params := rfl
@[simp] theorem State.storeBytes_mem (a : Nat) (bs : List Byte) :
    (s.storeBytes a bs).mem = memWrite s.params s.mem a bs := rfl
@[simp] theorem State.storeBytes_getV (a : Nat) (bs : List Byte) (r : Reg) : (s.storeBytes a bs).getV r = s.getV r := rfl
@[simp] theorem State.storeBytes_cell (a : Nat) (bs : List Byte) (c : Nat) : (s.storeBytes a bs).cell c = s.cell c := rfl

/-! `setDisp` -/

@[simp] theorem State.setDisp_v (d : Display) : (s.setDisp d).v = s.v := rfl
@[simp] theorem State.setDisp_i (d : Display) : (s.setDisp d).i = s.i := rfl
@[simp] theorem State.setDisp_pc (d : Display) : (s.setDisp d).pc = s.pc := rfl
@[simp] theorem State.setDisp_sp (d : Display) : (s.setDisp d).sp = s.sp := rfl
@[simp] theorem State.setDisp_dt (d : Display) : (s.setDisp d).dt = s.dt := rfl
@[simp] theorem State.setDisp_st (d : Display) : (s.setDisp d).st = s.st := rfl
@[simp] theorem State.setDisp_mem (d : Display) : (s.setDisp d).mem = s.mem := rfl
@[simp] theorem State.setDisp_disp (d : Display) : (s.setDisp d).disp = d := rfl
@[simp] theorem State.setDisp_keyInputs (d : Display) : (s.setDisp d).keyInputs = s.keyInputs := rfl
@[simp] theorem State.setDisp_rndInputs (d : Display) : (s.setDisp d).rndInputs = s.rndInputs := rfl
@[simp] theorem State.setDisp_steps (d : Display) : (s.setDisp d).steps = s.steps := rfl
@[simp] theorem State.setDisp_params (d : Display) : (s.setDisp d).params = s.params := rfl
@[simp] theorem State.setDisp_getV (d : Display) (r : Reg) : (s.setDisp d).getV r = s.getV r := rfl
@[simp] theorem State.setDisp_byteAt (d : Display) (a : Nat) : (s.setDisp d).byteAt a = s.byteAt a := rfl

/-! `advancePc` -/

@[simp] theorem State.advancePc_v : (s.advancePc).v = s.v := rfl
@[simp] theorem State.advancePc_i : (s.advancePc).i = s.i := rfl
@[simp] theorem State.advancePc_pc : (s.advancePc).pc = s.pc + 2#16 := rfl
@[simp] theorem State.advancePc_sp : (s.advancePc).sp = s.sp := rfl
@[simp] theorem State.advancePc_dt : (s.advancePc).dt = s.dt := rfl
@[simp] theorem State.advancePc_st : (s.advancePc).st = s.st := rfl
@[simp] theorem State.advancePc_mem : (s.advancePc).mem = s.mem := rfl
@[simp] theorem State.advancePc_disp : (s.advancePc).disp = s.disp := rfl
@[simp] theorem State.advancePc_keyInputs : (s.advancePc).keyInputs = s.keyInputs := rfl
@[simp] theorem State.advancePc_rndInputs : (s.advancePc).rndInputs = s.rndInputs := rfl
@[simp] theorem State.advancePc_steps : (s.advancePc).steps = s.steps := rfl
@[simp] theorem State.advancePc_params : (s.advancePc).params = s.params := rfl
@[simp] theorem State.advancePc_getV (r : Reg) : (s.advancePc).getV r = s.getV r := rfl
@[simp] theorem State.advancePc_byteAt (a : Nat) : (s.advancePc).byteAt a = s.byteAt a := rfl
@[simp] theorem State.advancePc_cell (c : Nat) : (s.advancePc).cell c = s.cell c := rfl

/-! `rewindPc` -/

@[simp] theorem State.rewindPc_v : (s.rewindPc).v = s.v := rfl
@[simp] theorem State.rewindPc_i : (s.rewindPc).i = s.i := rfl
@[simp] theorem State.rewindPc_pc : (s.rewindPc).pc = s.pc - 2#16 := rfl
@[simp] theorem State.rewindPc_sp : (s.rewindPc).sp = s.sp := rfl
@[simp] theorem State.rewindPc_dt : (s.rewindPc).dt = s.dt := rfl
@[simp] theorem State.rewindPc_st : (s.rewindPc).st = s.st := rfl
@[simp] theorem State.rewindPc_mem : (s.rewindPc).mem = s.mem := rfl
@[simp] theorem State.rewindPc_disp : (s.rewindPc).disp = s.disp := rfl
@[simp] theorem State.rewindPc_keyInputs : (s.rewindPc).keyInputs = s.keyInputs := rfl
@[simp] theorem State.rewindPc_rndInputs : (s.rewindPc).rndInputs = s.rndInputs := rfl
@[simp] theorem State.rewindPc_steps : (s.rewindPc).steps = s.steps := rfl
@[simp] theorem State.rewindPc_params : (s.rewindPc).params = s.params := rfl
@[simp] theorem State.rewindPc_getV (r : Reg) : (s.rewindPc).getV r = s.getV r := rfl
@[simp] theorem State.rewindPc_byteAt (a : Nat) : (s.rewindPc).byteAt a = s.byteAt a := rfl
@[simp] theorem State.rewindPc_cell (c : Nat) : (s.rewindPc).cell c = s.cell c := rfl

/-! `tick` -/

@[simp] theorem State.tick_v : (s.tick).v = s.v := rfl
@[simp] theorem State.tick_i : (s.tick).i = s.i := rfl
@[simp] theorem State.tick_pc : (s.tick).pc = s.pc := rfl
@[simp] theorem State.tick_sp : (s.tick).sp = s.sp := rfl
@[simp] theorem State.tick_dt : (s.tick).dt = tickTimer s.dt := rfl
@[simp] theorem State.tick_st : (s.tick).st = tickTimer s.st := rfl
@[simp] theorem State.tick_mem : (s.tick).mem = s.mem := rfl
@[simp] theorem State.tick_disp : (s.tick).disp = s.disp := rfl
@[simp] theorem State.tick_keyInputs : (s.tick).keyInputs = s.keyInputs := rfl
@[simp] theorem State.tick_rndInputs : (s.tick).rndInputs = s.rndInputs := rfl
@[simp] theorem State.tick_steps : (s.tick).steps = s.steps := rfl
@[simp] theorem State.tick_params : (s.tick).params = s.params := rfl
@[simp] theorem State.tick_getV (r : Reg) : (s.tick).getV r = s.getV r := rfl
@[simp] theorem State.tick_byteAt (a : Nat) : (s.tick).byteAt a = s.byteAt a := rfl
@[simp] theorem State.tick_cell (c : Nat) : (s.tick).cell c = s.cell c := rfl

/-! `nextInputs` -/

@[simp] theorem State.nextInputs_v : (s.nextInputs).v = s.v := rfl
@[simp] theorem State.nextInputs_i : (s.nextInputs).i = s.i := rfl
@[simp] theorem State.nextInputs_pc : (s.nextInputs).pc = s.pc := rfl
@[simp] theorem State.nextInputs_sp : (s.nextInputs).sp = s.sp := rfl
@[simp] theorem State.nextInputs_dt : (s.nextInputs).dt = s.dt := rfl
@[simp] theorem State.nextInputs_st : (s.nextInputs).st = s.st := rfl
@[simp] theorem State.nextInputs_mem : (s.nextInputs).mem = s.mem := rfl
@[simp] theorem State.nextInputs_disp : (s.nextInputs).disp = s.disp := rfl
@[simp] theorem State.nextInputs_keyInputs : (s.nextInputs).keyInputs = s.keyInputs.tail := rfl
@[simp] theorem State.nextInputs_rndInputs : (s.nextInputs).rndInputs = s.rndInputs.tail := rfl
@[simp] theorem State.nextInputs_steps : (s.nextInputs).steps = s.steps + 1 := rfl
@[simp] theorem State.nextInputs_params : (s.nextInputs).params = s.params := rfl
@[simp] theorem State.nextInputs_getV (r : Reg) : (s.nextInputs).getV r = s.getV r := rfl
@[simp] theorem State.nextInputs_byteAt (a : Nat) : (s.nextInputs).byteAt a = s.byteAt a := rfl
@[simp] theorem State.nextInputs_cell (c : Nat) : (s.nextInputs).cell c = s.cell c := rfl

/-! `endStep` -/

@[simp] theorem endStep_v : (endStep s).v = s.v := rfl
@[simp] theorem endStep_i : (endStep s).i = s.i := rfl
@[simp] theorem endStep_pc : (endStep s).pc = s.pc := rfl
@[simp] theorem endStep_sp : (endStep s).sp = s.sp := rfl
@[simp] theorem endStep_dt : (endStep s).dt = tickTimer s.dt := rfl
@[simp] theorem endStep_st : (endStep s).st = tickTimer s.st := rfl
@[simp] theorem endStep_mem : (endStep s).mem = s.mem := rfl
@[simp] theorem endStep_disp : (endStep s).disp = s.disp := rfl
@[simp] theorem endStep_keyInputs : (endStep s).keyInputs = s.keyInputs.tail := rfl
@[simp] theorem endStep_rndInputs : (endStep s).rndInputs = s.rndInputs.tail := rfl
@[simp] theorem endStep_steps : (endStep s).steps = s.steps + 1 := rfl
@[simp] theorem endStep_params : (endStep s).params = s.params := rfl
@[simp] theorem endStep_getV (r : Reg) : (endStep s).getV r = s.getV r := rfl
@[simp] theorem endStep_byteAt (a : Nat) : (endStep s).byteAt a = s.byteAt a := rfl
@[simp] theorem endStep_cell (c : Nat) : (endStep s).cell c = s.cell c := rfl

@[simp] theorem State.setMem_byteAt (m : Memory) (a : Nat) : (s.setMem m).byteAt a = Memory.read s.params m a := rfl
@[simp] theorem State.setDisp_cell (d : Display) (c : Nat) :
    (s.setDisp d).cell c = if Display.lit d c then Config.on else 0#16 := rfl

end Sys2Proof.Machine
end

