-- ==== Sys2Proof/Laws/Display.lean ====
section
/-! SUPPORT. The laws of the Display Surface (R17, R111, R112): what a toggle and a whole draw change, and that both keep
the canonical form. The membership laws need no canonical form. -/

namespace Sys2Proof.Machine

theorem insertCell_mem (c e : Nat) (d : Display) : e ∈ insertCell c d ↔ e = c ∨ e ∈ d := by
  induction d with
  | nil => simp [insertCell]
  | cons f d ih => unfold insertCell; split <;> simp [ih]; tauto

theorem insertCell_sorted {c : Nat} {d : Display} (hd : d.Pairwise (fun c e => c < e)) (hc : c ∉ d) :
    (insertCell c d).Pairwise (fun c e => c < e) := by
  induction d with
  | nil => simp [insertCell]
  | cons f d ih =>
    rw [List.pairwise_cons] at hd
    simp only [List.mem_cons, not_or] at hc
    unfold insertCell
    split
    · rename_i h
      refine List.pairwise_cons.2 ⟨fun e he => ?_, List.pairwise_cons.2 hd⟩
      rcases List.mem_cons.1 he with rfl | he
      · exact h
      · exact h.trans (hd.1 e he)
    · refine List.pairwise_cons.2 ⟨fun e he => ?_, ih hd.2 hc.2⟩
      rcases (insertCell_mem c e d).1 he with rfl | he
      · omega
      · exact hd.1 e he

/-- A toggle changes the toggled cell and no other (R112). -/
theorem Display.lit_toggle (d : Display) (c e : Nat) :
    Display.lit (Display.toggle d c) e = if e = c then !Display.lit d c else Display.lit d e := by
  unfold Display.toggle
  by_cases h : Display.lit d c
  · by_cases he : e = c
    · subst he; simp_all [Display.lit]
    · simp_all [Display.lit]
  · by_cases he : e = c
    · subst he; simp_all [Display.lit, insertCell_mem]
    · simp_all [Display.lit, insertCell_mem]

/-- A toggle of a cell that exists keeps the canonical form. -/
theorem Display.toggle_wf {d : Display} (h : Display.wf d) {c : Nat} (hc : c < Config.dispCells) :
    Display.wf (Display.toggle d c) := by
  unfold Display.toggle
  split
  · exact ⟨h.1.filter _, fun e he => h.2 e (List.mem_filter.1 he).1⟩
  · rename_i hl
    refine ⟨insertCell_sorted h.1 (by simpa [Display.lit] using hl), fun e he => ?_⟩
    rcases (insertCell_mem c e d).1 he with rfl | he
    · exact hc
    · exact h.2 e he

/-- The display a fold of draws leaves: each cell in the list toggled once, for a list without repeats (R111, R112). -/
theorem lit_foldl_drawCell (cells : List Nat) (h : cells.Nodup) (acc : Display × Bool) (e : Nat) :
    Display.lit (cells.foldl drawCell acc).1 e
      = if e ∈ cells then !Display.lit acc.1 e else Display.lit acc.1 e := by
  induction cells generalizing acc with
  | nil => simp
  | cons c cells ih =>
    rw [List.nodup_cons] at h
    rw [List.foldl_cons, ih h.2]
    simp only [drawCell, Display.lit_toggle, List.mem_cons]
    by_cases hec : e = c
    · subst hec; simp [h.1]
    · simp [hec]

/-- The collision a fold of draws reports: one of the cells was lit before, for a list without repeats (R112). -/
theorem collision_foldl_drawCell (cells : List Nat) (h : cells.Nodup) (acc : Display × Bool) :
    (cells.foldl drawCell acc).2 = (acc.2 || cells.any (fun c => Display.lit acc.1 c)) := by
  induction cells generalizing acc with
  | nil => simp
  | cons c cells ih =>
    rw [List.nodup_cons] at h
    rw [List.foldl_cons, ih h.2]
    have : cells.any (fun e => Display.lit (drawCell acc c).1 e) = cells.any (fun e => Display.lit acc.1 e) := by
      rw [Bool.eq_iff_iff]
      simp only [List.any_eq_true, drawCell, Display.lit_toggle]
      refine exists_congr fun e => and_congr_right fun he => ?_
      have hne : e ≠ c := fun hec => h.1 (hec ▸ he)
      simp [hne]
    rw [this]
    simp [drawCell, Bool.or_assoc]

/-- A draw of cells that exist keeps the canonical form. -/
theorem drawCells_wf {d : Display} (h : Display.wf d) {cells : List Nat} (hc : ∀ c ∈ cells, c < Config.dispCells) :
    Display.wf (drawCells d cells).1 := by
  have key : ∀ (l : List Nat) (acc : Display × Bool), Display.wf acc.1 → (∀ c ∈ l, c < Config.dispCells) →
      Display.wf (l.foldl drawCell acc).1 := by
    intro l
    induction l with
    | nil => exact fun acc hacc _ => hacc
    | cons c l ih =>
      exact fun acc hacc hl => ih (drawCell acc c) (Display.toggle_wf hacc (hl c (by simp))) fun e he => hl e (by simp [he])
  exact key cells (d, false) h hc

/-- The cleared display is in canonical form. -/
theorem Display.wf_nil : Display.wf [] := ⟨List.Pairwise.nil, by simp⟩

/-- The reset display is in canonical form, whatever the parameters. -/
theorem resetWith_disp_wf (p : Params) : Display.wf (State.resetWith p).disp := Display.wf_nil

/-- The reset display is in canonical form. -/
theorem reset_disp_wf : Display.wf State.reset.disp := Display.wf_nil

/-- `ON` is not 0 (R5). -/
theorem on_ne_zero : Config.on ≠ 0#16 := by
  unfold Config.on
  have h : Config.onIndex.val < 65535 := Config.onIndex.isLt
  intro h0
  have := congrArg BitVec.toNat h0
  simp [BitVec.toNat_ofNat] at this
  omega

end Sys2Proof.Machine
end

