-- ==== Sys2Proof/Laws/Memory.lean ====
section
/-! SUPPORT. The laws of the Memory Image (R31): a read after a write, the frame of a write, and that every operation keeps
the canonical form. None of the read laws needs the canonical form. -/

namespace Sys2Proof.Machine

theorem insertEntry_mem (c d : Host.Cell) (m : Memory) : d ∈ insertEntry c m ↔ d = c ∨ d ∈ m := by
  induction m with
  | nil => simp [insertEntry]
  | cons e m ih => unfold insertEntry; split <;> simp [ih]; tauto

theorem insertEntry_sorted {c : Host.Cell} {m : Memory} (hm : m.Pairwise (fun c d => c.1 < d.1))
    (hc : ∀ d ∈ m, d.1 ≠ c.1) : (insertEntry c m).Pairwise (fun c d => c.1 < d.1) := by
  induction m with
  | nil => simp [insertEntry]
  | cons e m ih =>
    rw [List.pairwise_cons] at hm
    have he : e.1 ≠ c.1 := hc e (by simp)
    unfold insertEntry
    split
    · rename_i h
      refine List.pairwise_cons.2 ⟨fun d hd => ?_, List.pairwise_cons.2 hm⟩
      rcases List.mem_cons.1 hd with rfl | hd
      · exact h
      · exact h.trans (hm.1 d hd)
    · refine List.pairwise_cons.2 ⟨fun d hd => ?_, ih hm.2 fun d hd => hc d (by simp [hd])⟩
      rcases (insertEntry_mem c d m).1 hd with rfl | hd
      · omega
      · exact hm.1 d hd

theorem find_insertEntry (c : Host.Cell) (m : Memory) (k : Nat) (hc : ∀ d ∈ m, d.1 ≠ c.1) :
    (insertEntry c m).find? (fun d => d.1 == k) = if c.1 = k then some c else m.find? (fun d => d.1 == k) := by
  induction m with
  | nil => by_cases h : c.1 = k <;> simp [insertEntry, h]
  | cons e m ih =>
    have he : e.1 ≠ c.1 := hc e (by simp)
    have ih := ih fun d hd => hc d (by simp [hd])
    unfold insertEntry
    split
    · by_cases h : c.1 = k <;> simp [h]
    · by_cases h : c.1 = k
      · subst h; simpa [List.find?_cons, he] using ih
      · by_cases h' : e.1 = k <;> simp [h', h] at ih ⊢; exact ih

theorem find_filter_ne (m : Memory) (k j : Nat) :
    (m.filter (fun c => c.1 != j)).find? (fun d => d.1 == k)
      = if k = j then none else m.find? (fun d => d.1 == k) := by
  induction m with
  | nil => simp
  | cons e m ih =>
    by_cases h : e.1 = j <;> by_cases hk : k = j <;> simp_all
    · have hjk : (j == k) = false := by simpa using fun h2 => hk h2.symm
      simp [h, hjk]
    · by_cases h2 : e.1 = k <;> simp_all

/-- A read of a byte after a write: the byte written at its address, every other byte as before (R31, R32). -/
theorem Memory.read_write (p : Params) (m : Memory) (a : Nat) (b : Byte) (k : Nat) :
    Memory.read p (Memory.write p m a b) k
      = if k % Config.memSize = a % Config.memSize then b else Memory.read p m k := by
  unfold Memory.read Memory.write
  split
  · rename_i c hc
    by_cases hb : b = unlistedByte p (a % Config.memSize) <;> by_cases hk : k % Config.memSize = a % Config.memSize <;>
      simp only [hb, if_true, if_false, find_filter_ne, hk] at hc ⊢
    · simp at hc
    · simp [hc]
    · rw [find_insertEntry _ _ _ (by simp)] at hc
      simp at hc; simp [← hc]
    · rw [find_insertEntry _ _ _ (by simp), if_neg (by simpa using fun h => hk h.symm), find_filter_ne, if_neg hk] at hc
      simp [hc]
  · rename_i hc
    by_cases hb : b = unlistedByte p (a % Config.memSize) <;> by_cases hk : k % Config.memSize = a % Config.memSize <;>
      simp only [hb, if_true, if_false, find_filter_ne, hk] at hc ⊢
    · simp [hc]
    · rw [find_insertEntry _ _ _ (by simp)] at hc
      simp at hc
    · rw [find_insertEntry _ _ _ (by simp), if_neg (by simpa using fun h => hk h.symm), find_filter_ne, if_neg hk] at hc
      simp [hc]

theorem Memory.read_mod (p : Params) (m : Memory) (a : Nat) :
    Memory.read p m (a % Config.memSize) = Memory.read p m a := by
  simp [Memory.read]

/-- One write keeps the canonical form. -/
theorem Memory.write_wf {p : Params} {m : Memory} (h : Memory.wf p m) (a : Nat) (b : Byte) :
    Memory.wf p (Memory.write p m a b) := by
  have hf : Memory.wf p (m.filter (fun c => c.1 != a % Config.memSize)) :=
    ⟨h.1.filter _, fun c hc => h.2 c (List.mem_filter.1 hc).1⟩
  unfold Memory.write
  split
  · exact hf
  · rename_i hb
    refine ⟨insertEntry_sorted hf.1 (by simp), fun c hc => ?_⟩
    rcases (insertEntry_mem _ c _).1 hc with rfl | hc
    · exact ⟨Nat.mod_lt _ (by decide), hb⟩
    · exact hf.2 c hc

/-- `MemWrite` keeps the canonical form. -/
theorem memWrite_wf {p : Params} {m : Memory} (h : Memory.wf p m) (a : Nat) (bs : List Byte) :
    Memory.wf p (memWrite p m a bs) := by
  induction bs generalizing m a with
  | nil => exact h
  | cons b bs ih => exact ih (Memory.write_wf h a b) (a + 1)

/-- The frame of `MemWrite`: a byte at none of the written addresses reads as before (R31). -/
theorem read_memWrite_of_outside (p : Params) (m : Memory) (a : Nat) (bs : List Byte) (k : Nat)
    (h : ∀ j, j < bs.length → k % Config.memSize ≠ (a + j) % Config.memSize) :
    Memory.read p (memWrite p m a bs) k = Memory.read p m k := by
  induction bs generalizing m a with
  | nil => rfl
  | cons b bs ih =>
    have h0 := h 0 (by simp)
    rw [memWrite, ih, Memory.read_write, if_neg (by simpa using h0)]
    intro j hj
    have := h (j + 1) (by simpa using hj)
    rwa [show a + 1 + j = a + (j + 1) by omega]

/-- What `MemWrite` writes: byte `j` of the list at the `j`-th address, for a list no longer than memory (R31). -/
theorem read_memWrite (p : Params) (m : Memory) (a : Nat) (bs : List Byte) (hbs : bs.length ≤ Config.memSize) (j : Nat)
    (b : Byte) (hj : bs[j]? = some b) : Memory.read p (memWrite p m a bs) (a + j) = b := by
  induction bs generalizing m a j with
  | nil => simp at hj
  | cons c bs ih =>
    simp only [List.length_cons] at hbs
    cases j with
    | zero =>
      rw [memWrite, read_memWrite_of_outside, Memory.read_write]
      · simpa using hj
      · intro j hj
        simp only [Config.memSize] at hbs ⊢; omega
    | succ j =>
      rw [memWrite, show a + (j + 1) = a + 1 + j by omega]
      exact ih _ _ (by omega) j (by simpa using hj)

/-- `MemRead` reads its bytes one by one (R31). -/
theorem memRead_getElem? (p : Params) (m : Memory) (a n k : Nat) :
    (memRead p m a n)[k]? = if k < n then some (Memory.read p m (a + k)) else none := by
  unfold memRead
  by_cases h : k < n <;> simp [h]

@[simp] theorem memRead_length (p : Params) (m : Memory) (a n : Nat) : (memRead p m a n).length = n := by simp [memRead]

/-- What a store of bytes leaves where it writes: byte `j` of the list at the `j`-th address (R31). -/
theorem State.storeBytes_byteAt (s : State) (a : Nat) (bs : List Byte) (hbs : bs.length ≤ Config.memSize) (j : Nat)
    (b : Byte) (hj : bs[j]? = some b) : (s.storeBytes a bs).byteAt (a + j) = b :=
  read_memWrite s.params s.mem a bs hbs j b hj

/-- The frame of a store of bytes within memory (R31). -/
theorem State.storeBytes_byteAt_of_outside (s : State) (a : Nat) (bs : List Byte) (k : Nat)
    (h : ∀ j, j < bs.length → k % Config.memSize ≠ (a + j) % Config.memSize) :
    (s.storeBytes a bs).byteAt k = s.byteAt k :=
  read_memWrite_of_outside s.params s.mem a bs k h

/-- A state loads its bytes one by one (R31). -/
theorem State.loadBytes_getElem? (s : State) (a n k : Nat) :
    (s.loadBytes a n)[k]? = if k < n then some (s.byteAt (a + k)) else none :=
  memRead_getElem? s.params s.mem a n k

@[simp] theorem State.loadBytes_length (s : State) (a n : Nat) : (s.loadBytes a n).length = n :=
  memRead_length s.params s.mem a n

/-- A byte's address is reduced modulo 4096 (R31). -/
theorem State.byteAt_mod (s : State) (a : Nat) : s.byteAt (a % Config.memSize) = s.byteAt a :=
  Memory.read_mod s.params s.mem a

/-- What memory reads as unlisted depends on the font and its base alone (R151). -/
theorem unlistedByte_congr {p q : Params} (hb : p.fontBase = q.fontBase) (hf : p.font = q.font) :
    unlistedByte p = unlistedByte q := by
  funext a; simp only [unlistedByte, hb, hf]

theorem memRead_congr {p q : Params} (h : unlistedByte p = unlistedByte q) : memRead p = memRead q := by
  funext m a n; simp only [memRead, Memory.read, h]

theorem memWrite_congr {p q : Params} (h : unlistedByte p = unlistedByte q) (m : Memory) (a : Nat) (bs : List Byte) :
    memWrite p m a bs = memWrite q m a bs := by
  induction bs generalizing m a with
  | nil => rfl
  | cons b bs ih => rw [memWrite, memWrite, ih]; simp only [Memory.write, h]

/-- The font lies within memory (R5). -/
theorem Params.fontBase_add_le (p : Params) : p.fontBase.val + 80 ≤ 4096 := by
  have h : p.fontBase.val < 4096 - 80 + 1 := p.fontBase.isLt
  omega

/-- A byte of the reset state (R24). -/
theorem resetWith_byteAt (p : Params) (a : Nat) :
    (State.resetWith p).byteAt a = unlistedByte p (a % Config.memSize) := rfl

/-- Memory with nothing listed is in canonical form. -/
theorem Memory.wf_nil (p : Params) : Memory.wf p [] := ⟨List.Pairwise.nil, by simp⟩

/-- The reset memory is in canonical form, whatever the parameters. -/
theorem resetWith_mem_wf (p : Params) : Memory.wf p (State.resetWith p).mem := Memory.wf_nil p

/-- The reset memory is in canonical form. -/
theorem reset_mem_wf : Memory.wf State.reset.params State.reset.mem := resetWith_mem_wf _

end Sys2Proof.Machine
end

