-- ==== Sys2Proof/Laws/Ops.lean ====
section
/-! SUPPORT. One lemma per shared operation, which says once what it does: registers, flags, skips, the stack, the sprite's
cells, the key scan, and what a step's next state is. -/

namespace Sys2Proof.Machine

/-- A register read after a register write (R10). -/
@[simp] theorem State.getV_setV (s : State) (x r : Reg) (b : RegByte) :
    (s.setV x b).getV r = if r = x then b else s.getV r := by
  simp [State.getV, State.setV, Vector.getElem_set, BitVec.toNat_inj, eq_comm]

/-- The flag first, the result last (R68): the result's register holds the result, `VF` the flag if it is another. -/
@[simp] theorem writeFlagThenResult_getV (s : State) (flag : RegByte) (x : Reg) (b : RegByte) (r : Reg) :
    (writeFlagThenResult s flag x b).getV r = if r = x then b else if r = flagReg then flag else s.getV r := by
  simp [writeFlagThenResult]

/-- Apart from the registers a flag-and-result write changes nothing. -/
theorem writeFlagThenResult_eq (s : State) (flag : RegByte) (x : Reg) (b : RegByte) :
    writeFlagThenResult s flag x b = { s with v := (writeFlagThenResult s flag x b).v } := rfl

/-- A skip moves `PC` and nothing else (R73). -/
theorem skipIf_eq (b : Bool) (s : State) : skipIf b s = s.setPc (if b then s.pc + 2#16 else s.pc) := by
  cases b <;> rfl

/-- A list of bytes written to consecutive registers changes nothing but the registers. -/
theorem setVs_eq (k : Nat) (bs : List Byte) (s : State) : setVs k bs s = { s with v := (setVs k bs s).v } := by
  induction bs generalizing k s with
  | nil => rfl
  | cons b bs ih => rw [setVs, ih]; rfl

/-- The registers after such a write depend on the registers before it alone. -/
theorem setVs_v_congr (k : Nat) (bs : List Byte) {s s' : State} (h : s.v = s'.v) :
    (setVs k bs s).v = (setVs k bs s').v := by
  induction bs generalizing k s s' with
  | nil => exact h
  | cons b bs ih => exact ih (k + 1) (by simp [h])

/-- What consecutive registers hold after a list of bytes is written from register `k` on, within the register file
(R106). -/
theorem setVs_getV (k : Nat) (bs : List Byte) (s : State) (h : k + bs.length ≤ 16) (r : Reg) :
    (setVs k bs s).getV r = if k ≤ r.toNat then (bs[r.toNat - k]?).getD (s.getV r) else s.getV r := by
  induction bs generalizing k s with
  | nil => simp [setVs]
  | cons b bs ih =>
    simp only [List.length_cons] at h
    rw [setVs, ih (k + 1) _ (by omega), State.getV_setV]
    have hr : r = BitVec.ofNat 4 k ↔ r.toNat = k := by
      rw [← BitVec.toNat_inj, BitVec.toNat_ofNat, Nat.mod_eq_of_lt (by omega)]
    by_cases h1 : r.toNat = k
    · rw [if_neg (by omega), if_pos (hr.2 h1), if_pos (by omega)]; simp [h1]
    · rw [if_neg (fun h2 => h1 (hr.1 h2))]
      by_cases h2 : k + 1 ≤ r.toNat
      · rw [if_pos h2, if_pos (by omega), show r.toNat - k = (r.toNat - (k + 1)) + 1 by omega]; simp
      · rw [if_neg h2, if_neg (by omega)]

/-- The registers a store reads: register `k` at place `k` (R105). -/
theorem regsUpTo_getElem? (s : State) (x : Reg) (k : Nat) :
    (regsUpTo s x)[k]? = if k ≤ x.toNat then some (s.getV (BitVec.ofNat 4 k)) else none := by
  unfold regsUpTo
  by_cases h : k ≤ x.toNat
  · rw [if_pos h]; simp [Nat.lt_succ_of_le h]
  · rw [if_neg h]; simp; omega

@[simp] theorem regsUpTo_length (s : State) (x : Reg) : (regsUpTo s x).length = x.toNat + 1 := by simp [regsUpTo]

/-- The cells of a sprite (R111, R112): cell `c` is one of them exactly when some row's byte has a set bit over it. -/
theorem mem_spriteCells (vx vy : RegByte) (row : Nat) (bs : List Byte) (c : Nat) :
    c ∈ spriteCells vx vy row bs ↔
      ∃ k b, bs[k]? = some b ∧ ∃ col, col < 8 ∧ b.getLsbD (7 - col) = true ∧ c = cellIndex vx vy (row + k) col := by
  induction bs generalizing row with
  | nil => simp [spriteCells]
  | cons b bs ih =>
    simp only [spriteCells, List.mem_append, List.mem_map, setColumns, List.mem_filter, List.mem_range, ih]
    constructor
    · rintro (⟨col, ⟨h1, h2⟩, rfl⟩ | ⟨k, b', hb, col, h1, h2, rfl⟩)
      · exact ⟨0, b, by simp, col, h1, h2, by simp⟩
      · exact ⟨k + 1, b', by simpa using hb, col, h1, h2, by rw [show row + (k + 1) = row + 1 + k by omega]⟩
    · rintro ⟨k, b', hb, col, h1, h2, rfl⟩
      cases k with
      | zero => left; simp at hb; subst hb; exact ⟨col, ⟨h1, h2⟩, by simp⟩
      | succ k =>
        right
        exact ⟨k, b', by simpa using hb, col, h1, h2, by rw [show row + (k + 1) = row + 1 + k by omega]⟩

/-- Every cell of a sprite exists (R111). -/
theorem spriteCells_lt (vx vy : RegByte) (row : Nat) (bs : List Byte) : ∀ c ∈ spriteCells vx vy row bs, c < Config.dispCells := by
  intro c hc
  obtain ⟨k, b, -, col, -, -, rfl⟩ := (mem_spriteCells vx vy row bs c).1 hc
  exact Nat.mod_lt _ (by decide)

/-- Two positions of one sprite of at most 32 rows are different cells (R111). -/
theorem cellIndex_inj {vx vy : RegByte} {r1 r2 c1 c2 : Nat} (hr1 : r1 < 32) (hr2 : r2 < 32) (hc1 : c1 < 8) (hc2 : c2 < 8)
    (h : cellIndex vx vy r1 c1 = cellIndex vx vy r2 c2) : r1 = r2 ∧ c1 = c2 := by
  simp only [cellIndex, Config.dispW, Config.dispH, Config.dispCells] at h
  omega

/-- No cell is touched twice in one sprite (R111). -/
theorem spriteCells_nodup (vx vy : RegByte) (row : Nat) (bs : List Byte) (h : row + bs.length ≤ 32) :
    (spriteCells vx vy row bs).Nodup := by
  induction bs generalizing row with
  | nil => simp [spriteCells]
  | cons b bs ih =>
    simp only [List.length_cons] at h
    have hcol : ∀ col ∈ setColumns b, col < 8 := by
      intro col hcol
      simpa using (List.mem_filter.1 hcol).1
    rw [spriteCells, List.nodup_append]
    refine ⟨?_, ih (row + 1) (by omega), ?_⟩
    · refine List.Nodup.map_on (fun c1 h1 c2 h2 he => ?_) (List.nodup_range.filter _)
      exact (cellIndex_inj (by omega) (by omega) (hcol c1 h1) (hcol c2 h2) he).2
    · intro c hc e he heq
      obtain ⟨c1, h1, rfl⟩ := List.mem_map.1 hc
      obtain ⟨k, b', hb, c2, h2, -, rfl⟩ := (mem_spriteCells vx vy (row + 1) bs e).1 he
      have hk : k < bs.length := by
        by_contra hk
        rw [List.getElem?_eq_none (by omega)] at hb
        simp at hb
      have := (cellIndex_inj (by omega) (by omega) (hcol c1 h1) h2 heq).1
      omega

/-- The key scan finds nothing exactly when no slot is pressed (R122). -/
theorem firstPressed_eq_none_iff (s : State) : firstPressed s = none ↔ ∀ k, k < 16 → keySlot s k = 0#8 := by
  simp [firstPressed, Config.numKeys]

/-- The key scan finds the least pressed slot (R122). -/
theorem firstPressed_eq_some_iff (s : State) (k : Nat) :
    firstPressed s = some k ↔ k < 16 ∧ keySlot s k ≠ 0#8 ∧ ∀ j, j < k → keySlot s j = 0#8 := by
  simp only [firstPressed, Config.numKeys, List.find?_range_eq_some]
  simp
  tauto

/-- The inversion of a step: the execute phase gave a next state, and the step ends from it (R60). -/
theorem step_eq_next_iff (s t : State) :
    step s = .next t ↔ ∃ u, exec (decode (fetchWord s)) s.advancePc = .next u ∧ t = endStep u := by
  unfold step
  split <;> rename_i h <;> simp [h, eq_comm]

/-- One more step of a run, for any machine behind the host's interface. -/
theorem run_succ {M : Host.Core} {s t : M.State} (h : M.step s = .next t) (k : Nat) :
    M.run (k + 1) s = M.run k t := by
  simp only [Host.Core.run, h]

/-- One more step of a run of this machine. -/
theorem core_run_succ {s t : State} (h : step s = .next t) (k : Nat) :
    Host.Core.run core (k + 1) s = Host.Core.run core k t := run_succ (M := core) h k

end Sys2Proof.Machine
end

