-- ==== Sys2Proof/Laws/PerInstr.lean ====
section
/-! SUPPORT. The per-instruction family: the word of every well-formed instruction stands under its own row of R54 and
holds its operands in the fields of R51; a no-op's word is one of R56's. -/

namespace Sys2Proof.Laws.RowOf

/-- The row of R54 that an instruction's word matches gives the instruction back; a no-op's word is unmatched (R56). -/
def Statement (i : Instr) : Prop :=
  i.wellFormed = true →
    (∃ (k : Nat) (row : OpcodeRow), opcodeRows[k]? = some row ∧ encode i &&& row.mask = row.pattern ∧ row.build (encode i) = i) ∨
      (i = .nop (encode i) ∧ unmatchedWord (encode i) = true)

/-- A row whose mask is the family's digit (formats `A`, `XI`, `XYN`). -/
theorem of_family {i : Instr} (k : Nat) (op : Nibble) {pattern : Word} {build : Word → Instr}
    (hk : opcodeRows[k]? = some ⟨0xF000#16, pattern, build⟩) (hp : wordA op 0#12 = pattern)
    (ho : opField (encode i) = op) (hb : build (encode i) = i) : Statement i :=
  fun _ => .inl ⟨k, _, hk, hp ▸ (and_F000_eq_iff _ _).2 ho, hb⟩

/-- A row whose mask is the family's digit and the low digit (format `XY`). -/
theorem of_lowDigit {i : Instr} (k : Nat) (op n : Nibble) {pattern : Word} {build : Word → Instr}
    (hk : opcodeRows[k]? = some ⟨0xF00F#16, pattern, build⟩) (hp : wordXYN op 0#4 0#4 n = pattern)
    (ho : opField (encode i) = op ∧ nField (encode i) = n) (hb : build (encode i) = i) : Statement i :=
  fun _ => .inl ⟨k, _, hk, hp ▸ (and_F00F_eq_iff _ _ _).2 ho, hb⟩

/-- A row whose mask is the family's digit and the low byte (format `X`). -/
theorem of_lowByte {i : Instr} (k : Nat) (op : Nibble) (nn : Byte) {pattern : Word} {build : Word → Instr}
    (hk : opcodeRows[k]? = some ⟨0xF0FF#16, pattern, build⟩) (hp : wordXI op 0#4 nn = pattern)
    (ho : opField (encode i) = op ∧ nnField (encode i) = nn) (hb : build (encode i) = i) : Statement i :=
  fun _ => .inl ⟨k, _, hk, hp ▸ (and_F0FF_eq_iff _ _ _).2 ho, hb⟩

/-- Row 1. -/
theorem cls : Statement .cls := fun _ => .inl ⟨0, _, rfl, rfl, rfl⟩

/-- Row 2. -/
theorem ret : Statement .ret := fun _ => .inl ⟨1, _, rfl, rfl, rfl⟩

/-- Row 3. -/
theorem jp (nnn : Addr) : Statement (.jp nnn) :=
  of_family 2 0x1#4 rfl (by decide) (by simp [encode]) (by simp [encode])

/-- Row 4. -/
theorem call (nnn : Addr) : Statement (.call nnn) :=
  of_family 3 0x2#4 rfl (by decide) (by simp [encode]) (by simp [encode])

/-- Row 5. -/
theorem seImm (x : Reg) (nn : Byte) : Statement (.seImm x nn) :=
  of_family 4 0x3#4 rfl (by decide) (by simp [encode]) (by simp [encode])

/-- Row 6. -/
theorem sneImm (x : Reg) (nn : Byte) : Statement (.sneImm x nn) :=
  of_family 5 0x4#4 rfl (by decide) (by simp [encode]) (by simp [encode])

/-- Row 7. -/
theorem seReg (x y : Reg) : Statement (.seReg x y) :=
  of_lowDigit 6 0x5#4 0x0#4 rfl (by decide) (by simp [encode]) (by simp [encode])

/-- Row 8. -/
theorem sneReg (x y : Reg) : Statement (.sneReg x y) :=
  of_lowDigit 7 0x9#4 0x0#4 rfl (by decide) (by simp [encode]) (by simp [encode])

/-- Row 9. -/
theorem ldImm (x : Reg) (nn : Byte) : Statement (.ldImm x nn) :=
  of_family 8 0x6#4 rfl (by decide) (by simp [encode]) (by simp [encode])

/-- Row 10. -/
theorem addImm (x : Reg) (nn : Byte) : Statement (.addImm x nn) :=
  of_family 9 0x7#4 rfl (by decide) (by simp [encode]) (by simp [encode])

/-- Row 11. -/
theorem ldReg (x y : Reg) : Statement (.ldReg x y) :=
  of_lowDigit 10 0x8#4 0x0#4 rfl (by decide) (by simp [encode]) (by simp [encode])

/-- Row 12. -/
theorem orReg (x y : Reg) : Statement (.orReg x y) :=
  of_lowDigit 11 0x8#4 0x1#4 rfl (by decide) (by simp [encode]) (by simp [encode])

/-- Row 13. -/
theorem andReg (x y : Reg) : Statement (.andReg x y) :=
  of_lowDigit 12 0x8#4 0x2#4 rfl (by decide) (by simp [encode]) (by simp [encode])

/-- Row 14. -/
theorem xorReg (x y : Reg) : Statement (.xorReg x y) :=
  of_lowDigit 13 0x8#4 0x3#4 rfl (by decide) (by simp [encode]) (by simp [encode])

/-- Row 15. -/
theorem addReg (x y : Reg) : Statement (.addReg x y) :=
  of_lowDigit 14 0x8#4 0x4#4 rfl (by decide) (by simp [encode]) (by simp [encode])

/-- Row 16. -/
theorem subReg (x y : Reg) : Statement (.subReg x y) :=
  of_lowDigit 15 0x8#4 0x5#4 rfl (by decide) (by simp [encode]) (by simp [encode])

/-- Row 17. -/
theorem shr (x y : Reg) : Statement (.shr x y) :=
  of_lowDigit 16 0x8#4 0x6#4 rfl (by decide) (by simp [encode]) (by simp [encode])

/-- Row 18. -/
theorem subnReg (x y : Reg) : Statement (.subnReg x y) :=
  of_lowDigit 17 0x8#4 0x7#4 rfl (by decide) (by simp [encode]) (by simp [encode])

/-- Row 19. -/
theorem shl (x y : Reg) : Statement (.shl x y) :=
  of_lowDigit 18 0x8#4 0xE#4 rfl (by decide) (by simp [encode]) (by simp [encode])

/-- Row 20. -/
theorem ldI (nnn : Addr) : Statement (.ldI nnn) :=
  of_family 19 0xA#4 rfl (by decide) (by simp [encode]) (by simp [encode])

/-- Row 21. -/
theorem jpV0 (nnn : Addr) : Statement (.jpV0 nnn) :=
  of_family 20 0xB#4 rfl (by decide) (by simp [encode]) (by simp [encode])

/-- Row 22. -/
theorem rnd (x : Reg) (nn : Byte) : Statement (.rnd x nn) :=
  of_family 21 0xC#4 rfl (by decide) (by simp [encode]) (by simp [encode])

/-- Row 23. -/
theorem drw (x y : Reg) (n : Nibble) : Statement (.drw x y n) :=
  of_family 22 0xD#4 rfl (by decide) (by simp [encode]) (by simp [encode])

/-- Row 24. -/
theorem skp (x : Reg) : Statement (.skp x) :=
  of_lowByte 23 0xE#4 0x9E#8 rfl (by decide) (by simp [encode]) (by simp [encode])

/-- Row 25. -/
theorem sknp (x : Reg) : Statement (.sknp x) :=
  of_lowByte 24 0xE#4 0xA1#8 rfl (by decide) (by simp [encode]) (by simp [encode])

/-- Row 26. -/
theorem ldVxDt (x : Reg) : Statement (.ldVxDt x) :=
  of_lowByte 25 0xF#4 0x07#8 rfl (by decide) (by simp [encode]) (by simp [encode])

/-- Row 27. -/
theorem ldDtVx (x : Reg) : Statement (.ldDtVx x) :=
  of_lowByte 26 0xF#4 0x15#8 rfl (by decide) (by simp [encode]) (by simp [encode])

/-- Row 28. -/
theorem ldStVx (x : Reg) : Statement (.ldStVx x) :=
  of_lowByte 27 0xF#4 0x18#8 rfl (by decide) (by simp [encode]) (by simp [encode])

/-- Row 29. -/
theorem addI (x : Reg) : Statement (.addI x) :=
  of_lowByte 28 0xF#4 0x1E#8 rfl (by decide) (by simp [encode]) (by simp [encode])

/-- Row 30. -/
theorem ldF (x : Reg) : Statement (.ldF x) :=
  of_lowByte 29 0xF#4 0x29#8 rfl (by decide) (by simp [encode]) (by simp [encode])

/-- Row 31. -/
theorem ldB (x : Reg) : Statement (.ldB x) :=
  of_lowByte 30 0xF#4 0x33#8 rfl (by decide) (by simp [encode]) (by simp [encode])

/-- Row 32. -/
theorem storeRegs (x : Reg) : Statement (.storeRegs x) :=
  of_lowByte 31 0xF#4 0x55#8 rfl (by decide) (by simp [encode]) (by simp [encode])

/-- Row 33. -/
theorem loadRegs (x : Reg) : Statement (.loadRegs x) :=
  of_lowByte 32 0xF#4 0x65#8 rfl (by decide) (by simp [encode]) (by simp [encode])

/-- Row 34. -/
theorem ldVxK (x : Reg) : Statement (.ldVxK x) :=
  of_lowByte 33 0xF#4 0x0A#8 rfl (by decide) (by simp [encode]) (by simp [encode])

/-- The words of no row (R56). -/
theorem nop (w : Word) : Statement (.nop w) := fun h => .inr ⟨rfl, h⟩

end Sys2Proof.Laws.RowOf
end

