-- ==== Sys2Proof/Tests/Slice0.lean ====
section
/-! SUPPORT. The model's own tests: ill-formed terms refused, one word per constructor decoded, single steps with the
expected results of spec/95_test_vectors.md, and a witness for the hypotheses of every statement. -/

namespace Sys2Proof.Tests

open Sys2Proof Sys2Proof.Machine

/-! Helpers -/

/-- The reset state with some registers set. -/
def regs (l : List (Reg × Byte)) : State := l.foldl (fun s p => s.setV p.1 p.2) State.reset

/-- Bytes put into memory from an address on. -/
def poke (s : State) (a : Nat) (bs : List Byte) : State := s.storeBytes a bs

/-- The keypad with the keys of a list held down. -/
def keysDown (l : List Nat) : Keypad := hostKeys Params.suggested l

/-- Parameters other than the suggested ones: the program below the font, a font of other bytes. -/
def otherParams : Params :=
  { Params.suggested with progBase := ⟨0x000, by decide⟩, fontBase := ⟨4016, by decide⟩, stackBase := ⟨0xFFF, by decide⟩
                          font := Vector.replicate 80 0xAA#8, keyDown := ⟨0x01#8, by decide⟩ }

/-- One field of the state after one step with the word `w` placed where the step fetches it. -/
def see {α : Type} (s : State) (w : Nat) (f : State → α) : Option α :=
  match step (s.withFetchWord 16 w) with
  | .next t => some (f t)
  | _ => none

/-- One field of the state after one step from a state that has its own word. -/
def seeOwn {α : Type} (s : State) (f : State → α) : Option α :=
  match step s with
  | .next t => some (f t)
  | _ => none

/-! Well-formedness: the words of R54's rows are no no-ops, family by family (R56) -/

theorem test_wellFormed_refuses_family_0 :
    (Instr.nop 0x00E0#16).wellFormed = false ∧ (Instr.nop 0x00EE#16).wellFormed = false := by decide

theorem test_wellFormed_refuses_family_5 : (Instr.nop 0x5120#16).wellFormed = false := by decide

theorem test_wellFormed_refuses_family_8 :
    (Instr.nop 0x8127#16).wellFormed = false ∧ (Instr.nop 0x812E#16).wellFormed = false := by decide

theorem test_wellFormed_refuses_family_9 : (Instr.nop 0x9120#16).wellFormed = false := by decide

theorem test_wellFormed_refuses_family_E :
    (Instr.nop 0xE19E#16).wellFormed = false ∧ (Instr.nop 0xE1A1#16).wellFormed = false := by decide

theorem test_wellFormed_refuses_family_F :
    (Instr.nop 0xF10A#16).wellFormed = false ∧ (Instr.nop 0xF165#16).wellFormed = false := by decide

/-- The families without unmatched words. -/
theorem test_wellFormed_refuses_full_families :
    (Instr.nop 0x1ABC#16).wellFormed = false ∧ (Instr.nop 0x7003#16).wellFormed = false ∧
      (Instr.nop 0xD012#16).wellFormed = false := by decide

/-- The corner cases of R64 are no-ops. -/
theorem test_wellFormed_accepts_unmatched :
    ([0x0000#16, 0x00E1#16, 0x01E0#16, 0x5011#16, 0x8008#16, 0x800F#16, 0x9001#16, 0xE09F#16, 0xE000#16] ++
      [0xF000#16, 0xF075#16, 0xF085#16, 0xFFFF#16]).all (fun w => (Instr.nop w).wellFormed) = true := by decide

/-! Decoding: one word per constructor, written out from R54's encoding strings; bits 15 to 0 -/

theorem test_decode_family_0 :
    decode 0b0000000011100000#16 = .cls ∧ encode (.cls) = 0b0000000011100000#16 ∧
    decode 0b0000000011101110#16 = .ret ∧ encode (.ret) = 0b0000000011101110#16 ∧
    decode 0b0000000111100000#16 = .nop 0x01E0#16 ∧ encode (.nop 0x01E0#16) = 0b0000000111100000#16 := by decide

theorem test_decode_families_1_2 :
    decode 0b0001101010111100#16 = .jp 0xABC#12 ∧ encode (.jp 0xABC#12) = 0b0001101010111100#16 ∧
    decode 0b0010001100000100#16 = .call 0x304#12 ∧ encode (.call 0x304#12) = 0b0010001100000100#16 := by decide

theorem test_decode_families_3_4 :
    decode 0b0011101001000010#16 = .seImm 0xA#4 0x42#8 ∧ encode (.seImm 0xA#4 0x42#8) = 0b0011101001000010#16 ∧
    decode 0b0100101001000010#16 = .sneImm 0xA#4 0x42#8 ∧ encode (.sneImm 0xA#4 0x42#8) = 0b0100101001000010#16 := by decide

theorem test_decode_families_5_9 :
    decode 0b0101000100100000#16 = .seReg 0x1#4 0x2#4 ∧ encode (.seReg 0x1#4 0x2#4) = 0b0101000100100000#16 ∧
    decode 0b1001000100100000#16 = .sneReg 0x1#4 0x2#4 ∧ encode (.sneReg 0x1#4 0x2#4) = 0b1001000100100000#16 ∧
    decode 0b1001101010110001#16 = .nop 0x9AB1#16 ∧ encode (.nop 0x9AB1#16) = 0b1001101010110001#16 := by decide

theorem test_decode_families_6_7 :
    decode 0b0110000000000101#16 = .ldImm 0x0#4 0x05#8 ∧ encode (.ldImm 0x0#4 0x05#8) = 0b0110000000000101#16 ∧
    decode 0b0111000000000011#16 = .addImm 0x0#4 0x03#8 ∧ encode (.addImm 0x0#4 0x03#8) = 0b0111000000000011#16 := by decide

theorem test_decode_family_8_logic :
    decode 0b1000000100100000#16 = .ldReg 0x1#4 0x2#4 ∧ encode (.ldReg 0x1#4 0x2#4) = 0b1000000100100000#16 ∧
    decode 0b1000000100100001#16 = .orReg 0x1#4 0x2#4 ∧ encode (.orReg 0x1#4 0x2#4) = 0b1000000100100001#16 ∧
    decode 0b1000000100100010#16 = .andReg 0x1#4 0x2#4 ∧ encode (.andReg 0x1#4 0x2#4) = 0b1000000100100010#16 ∧
    decode 0b1000000100100011#16 = .xorReg 0x1#4 0x2#4 ∧ encode (.xorReg 0x1#4 0x2#4) = 0b1000000100100011#16 := by decide

theorem test_decode_family_8_arithmetic :
    decode 0b1000000100100100#16 = .addReg 0x1#4 0x2#4 ∧ encode (.addReg 0x1#4 0x2#4) = 0b1000000100100100#16 ∧
    decode 0b1000000100100101#16 = .subReg 0x1#4 0x2#4 ∧ encode (.subReg 0x1#4 0x2#4) = 0b1000000100100101#16 ∧
    decode 0b1000000100100110#16 = .shr 0x1#4 0x2#4 ∧ encode (.shr 0x1#4 0x2#4) = 0b1000000100100110#16 ∧
    decode 0b1000000100100111#16 = .subnReg 0x1#4 0x2#4 ∧ encode (.subnReg 0x1#4 0x2#4) = 0b1000000100100111#16 ∧
    decode 0b1000000100101110#16 = .shl 0x1#4 0x2#4 ∧ encode (.shl 0x1#4 0x2#4) = 0b1000000100101110#16 := by decide

theorem test_decode_families_A_B_C_D :
    decode 0b1010000100100011#16 = .ldI 0x123#12 ∧ encode (.ldI 0x123#12) = 0b1010000100100011#16 ∧
    decode 0b1011001100000000#16 = .jpV0 0x300#12 ∧ encode (.jpV0 0x300#12) = 0b1011001100000000#16 ∧
    decode 0b1100000100001111#16 = .rnd 0x1#4 0x0F#8 ∧ encode (.rnd 0x1#4 0x0F#8) = 0b1100000100001111#16 ∧
    decode 0b1101000000010010#16 = .drw 0x0#4 0x1#4 0x2#4 ∧ encode (.drw 0x0#4 0x1#4 0x2#4) = 0b1101000000010010#16 := by decide

theorem test_decode_family_E :
    decode 0b1110010010011110#16 = .skp 0x4#4 ∧ encode (.skp 0x4#4) = 0b1110010010011110#16 ∧
    decode 0b1110010010100001#16 = .sknp 0x4#4 ∧ encode (.sknp 0x4#4) = 0b1110010010100001#16 := by decide

theorem test_decode_family_F_timers_and_key :
    decode 0b1111000100000111#16 = .ldVxDt 0x1#4 ∧ encode (.ldVxDt 0x1#4) = 0b1111000100000111#16 ∧
    decode 0b1111001000001010#16 = .ldVxK 0x2#4 ∧ encode (.ldVxK 0x2#4) = 0b1111001000001010#16 ∧
    decode 0b1111000100010101#16 = .ldDtVx 0x1#4 ∧ encode (.ldDtVx 0x1#4) = 0b1111000100010101#16 ∧
    decode 0b1111010100011000#16 = .ldStVx 0x5#4 ∧ encode (.ldStVx 0x5#4) = 0b1111010100011000#16 := by decide

theorem test_decode_family_F_index_and_memory :
    decode 0b1111001000011110#16 = .addI 0x2#4 ∧ encode (.addI 0x2#4) = 0b1111001000011110#16 ∧
    decode 0b1111001000101001#16 = .ldF 0x2#4 ∧ encode (.ldF 0x2#4) = 0b1111001000101001#16 ∧
    decode 0b1111000000110011#16 = .ldB 0x0#4 ∧ encode (.ldB 0x0#4) = 0b1111000000110011#16 ∧
    decode 0b1111001001010101#16 = .storeRegs 0x2#4 ∧ encode (.storeRegs 0x2#4) = 0b1111001001010101#16 ∧
    decode 0b1111001001100101#16 = .loadRegs 0x2#4 ∧ encode (.loadRegs 0x2#4) = 0b1111001001100101#16 := by decide

/-- The byte at the lower address is the high byte (R33): the document's program starts with the bytes 60 05. -/
theorem test_decode_bytes :
    decodeBytes [0x60#8, 0x05#8, 0x70#8] = .ok (.ldImm 0x0#4 0x05#8, [0x70#8]) ∧
      decodeBytes [0x60#8] = .error .needsTwoBytes ∧ decodeTableWord 16 0x7003 = some (.addImm 0x0#4 0x03#8) := by decide

/-! Reset (R24) and the parameters' defaults (R5) -/

theorem test_reset :
    State.reset.pc = 0x0200#16 ∧ State.reset.sp = 0x0EA0#16 ∧ State.reset.byteAt 0x050 = 0xF0#8 ∧
      State.reset.byteAt 0x09F = 0x80#8 ∧ State.reset.byteAt 0x0A0 = 0#8 ∧ State.reset.byteAt 0x04F = 0#8 := by decide

/-- The same rules with other parameters: the bases and the font are those given (R13, R14, R24, R151). -/
theorem test_reset_otherParams :
    (State.resetWith otherParams).pc = 0x0000#16 ∧ (State.resetWith otherParams).sp = 0x0FFF#16 ∧
      (State.resetWith otherParams).byteAt 4016 = 0xAA#8 ∧ (State.resetWith otherParams).byteAt 4095 = 0xAA#8 ∧
      (State.resetWith otherParams).byteAt 0x050 = 0#8 := by decide

/-- What a byte reads as that equals its unlisted value is not listed. -/
theorem test_memory_canonical :
    (poke State.reset 0x050 [0x12#8]).mem = [(0x050, 0x12#8)] ∧
      (poke (poke State.reset 0x050 [0x12#8]) 0x1050 [0xF0#8]).mem = [] := by decide

/-! Single steps, expected results from spec/95_test_vectors.md -/

/-- T-STEP-13: the second byte of the fetch wraps to address 0, `PC` is not reduced to 12 bits. -/
theorem test_step_fetch_wraps :
    seeOwn (poke (State.reset.setPc 0x0FFF#16) 0x0FFF [0x6A#8, 0x42#8]) (fun t => (t.pc, t.getV 0xA#4)) =
      some (0x1001#16, 0x42#8) := by decide

/-- T-STEP-14: the fetch reduces `PC`, and `PC` wraps modulo 65536. -/
theorem test_step_pc_wraps :
    seeOwn (poke (State.reset.setPc 0xFFFE#16) 0xFFE [0x63#8, 0x07#8]) (fun t => (t.pc, t.getV 0x3#4)) =
      some (0x0000#16, 0x07#8) := by decide

/-- T-STEP-2: an unmatched word; the tick still happens. -/
theorem test_nop_ticks :
    see ((State.reset.setDt 0x05#8).setSt 0x01#8) 0x0123 (fun t => (t.pc, t.dt, t.st)) =
      some (0x0202#16, 0x04#8, 0x00#8) := by decide

/-- T-STEP-5: `5XY1` is no skip although the registers are equal. -/
theorem test_nop_5XY1 :
    see (regs [(0x1#4, 0x03#8), (0x2#4, 0x03#8)]) 0x5121 (fun t => t.pc) =
      some 0x0202#16 := by decide

/-- T-DSP-1. -/
theorem test_cls :
    see ({ (regs [(0xF#4, 0x01#8)]) with disp := [0, 5, 2047] }) 0x00E0 (fun t => (t.pc, t.disp, t.getV 0xF#4)) =
      some (0x0202#16, [], 0x01#8) := by decide

/-- T-CF-4: the high byte is the one at the higher address. -/
theorem test_ret :
    see (poke (State.reset.setSp 0x0EA2#16) 0xEA0 [0x02#8, 0x03#8]) 0x00EE (fun t => (t.pc, t.sp, t.byteAt 0xEA0)) =
      some (0x0302#16, 0x0EA0#16, 0x02#8) := by decide

/-- T-CF-6: the pop wraps below address 0, `PC` is not reduced. -/
theorem test_ret_wraps :
    see (poke (State.reset.setSp 0x0001#16) 0xFFF [0x34#8, 0x12#8]) 0x00EE (fun t => (t.pc, t.sp)) =
      some (0x1234#16, 0xFFFF#16) := by decide

/-- T-CF-1. -/
theorem test_jp :
    see State.reset 0x1ABC (fun t => (t.pc, t.sp)) =
      some (0x0ABC#16, 0x0EA0#16) := by decide

/-- T-CF-3: the advanced `PC` is pushed, low byte first. -/
theorem test_call :
    see State.reset 0x2300 (fun t => (t.pc, t.sp, t.byteAt 0xEA0, t.byteAt 0xEA1)) =
      some (0x0300#16, 0x0EA2#16, 0x02#8, 0x02#8) := by decide

/-- T-CF-5: the push wraps to address 0. -/
theorem test_call_wraps :
    see ((State.reset.setPc 0x0FFE#16).setSp 0x0FFF#16) 0x2456 (fun t => (t.pc, t.sp, t.byteAt 0xFFF, t.byteAt 0x000)) =
      some (0x0456#16, 0x1001#16, 0x00#8, 0x10#8) := by decide

/-- T-CF-8. -/
theorem test_seImm_taken :
    see (regs [(0xA#4, 0x42#8)]) 0x3A42 (fun t => t.pc) =
      some 0x0204#16 := by decide

/-- T-CF-21: the skip wraps. -/
theorem test_seImm_wraps :
    see (State.reset.setPc 0xFFFC#16) 0x3100 (fun t => t.pc) =
      some 0x0000#16 := by decide

/-- T-CF-10. -/
theorem test_sneImm_not_taken :
    see (regs [(0xA#4, 0x42#8)]) 0x4A42 (fun t => t.pc) =
      some 0x0202#16 := by decide

/-- T-CF-11. -/
theorem test_sneImm_taken :
    see (regs [(0xA#4, 0x43#8)]) 0x4A42 (fun t => t.pc) =
      some 0x0204#16 := by decide

/-- T-CF-12. -/
theorem test_seReg_taken :
    see (regs [(0x1#4, 0x07#8), (0x2#4, 0x07#8)]) 0x5120 (fun t => t.pc) =
      some 0x0204#16 := by decide

/-- T-CF-13. -/
theorem test_seReg_not_taken :
    see (regs [(0x1#4, 0x07#8), (0x2#4, 0x08#8)]) 0x5120 (fun t => t.pc) =
      some 0x0202#16 := by decide

/-- T-CF-15. -/
theorem test_sneReg_not_taken :
    see (regs [(0x1#4, 0x07#8), (0x2#4, 0x07#8)]) 0x9120 (fun t => t.pc) =
      some 0x0202#16 := by decide

/-- T-CF-16. -/
theorem test_sneReg_taken :
    see (regs [(0x1#4, 0x07#8), (0x2#4, 0x08#8)]) 0x9120 (fun t => t.pc) =
      some 0x0204#16 := by decide

/-- T-CF-19: not reduced to 12 bits. -/
theorem test_jpV0 :
    see (regs [(0x0#4, 0xFF#8)]) 0xBFFF (fun t => t.pc) =
      some 0x10FE#16 := by decide

/-- T-ALU-2: `VF` is an ordinary destination. -/
theorem test_ldImm_VF :
    see (regs [(0xF#4, 0x09#8)]) 0x6F00 (fun t => (t.pc, t.getV 0xF#4)) =
      some (0x0202#16, 0x00#8) := by decide

/-- T-ALU-3: wraps, `VF` untouched. -/
theorem test_addImm :
    see (regs [(0x0#4, 0xFE#8), (0xF#4, 0x07#8)]) 0x7005 (fun t => (t.getV 0x0#4, t.getV 0xF#4)) =
      some (0x03#8, 0x07#8) := by decide

/-- T-ALU-4: no carry is recorded. -/
theorem test_addImm_VF :
    see (regs [(0xF#4, 0xFF#8)]) 0x7F01 (fun t => t.getV 0xF#4) =
      some 0x00#8 := by decide

/-- T-ALU-6. -/
theorem test_ldReg :
    see (regs [(0x1#4, 0x01#8), (0x2#4, 0xAB#8)]) 0x8120 (fun t => (t.getV 0x1#4, t.getV 0x2#4)) =
      some (0xAB#8, 0xAB#8) := by decide

/-- T-ALU-7. -/
theorem test_orReg :
    see (regs [(0x1#4, 0xF0#8), (0x2#4, 0x0F#8), (0xF#4, 0x05#8)]) 0x8121 (fun t => (t.getV 0x1#4, t.getV 0xF#4)) =
      some (0xFF#8, 0x05#8) := by decide

/-- T-ALU-8. -/
theorem test_andReg :
    see (regs [(0x1#4, 0xF0#8), (0x2#4, 0x3C#8), (0xF#4, 0x05#8)]) 0x8122 (fun t => (t.getV 0x1#4, t.getV 0xF#4)) =
      some (0x30#8, 0x05#8) := by decide

/-- T-ALU-9. -/
theorem test_xorReg :
    see (regs [(0x1#4, 0xF0#8), (0x2#4, 0x3C#8), (0xF#4, 0x05#8)]) 0x8123 (fun t => (t.getV 0x1#4, t.getV 0xF#4)) =
      some (0xCC#8, 0x05#8) := by decide

/-- T-ALU-12: the sum 255 is no carry. -/
theorem test_addReg_255 :
    see (regs [(0x1#4, 0x80#8), (0x2#4, 0x7F#8), (0xF#4, 0x07#8)]) 0x8124 (fun t => (t.getV 0x1#4, t.getV 0xF#4)) =
      some (0xFF#8, 0x00#8) := by decide

/-- T-ALU-20: `x = 15`, the sum stays and the carry is lost (D11). -/
theorem test_addReg_VF :
    see (regs [(0xF#4, 0xC8#8), (0x2#4, 0x64#8)]) 0x8F24 (fun t => t.getV 0xF#4) =
      some 0x2C#8 := by decide

/-- T-ALU-17: equal operands give flag 0. -/
theorem test_subReg_equal :
    see (regs [(0x1#4, 0x07#8), (0x2#4, 0x07#8), (0xF#4, 0x01#8)]) 0x8125 (fun t => (t.getV 0x1#4, t.getV 0xF#4)) =
      some (0x00#8, 0x00#8) := by decide

/-- T-ALU-25: `y = 15`, the old `VF` is subtracted (D11). -/
theorem test_subReg_VF :
    see (regs [(0x1#4, 0x0A#8), (0xF#4, 0x03#8)]) 0x81F5 (fun t => (t.getV 0x1#4, t.getV 0xF#4)) =
      some (0x07#8, 0x01#8) := by decide

/-- T-ALU-30: the last bit is the flag, `V2` ignored. -/
theorem test_shr :
    see (regs [(0x1#4, 0x05#8), (0x2#4, 0xFF#8)]) 0x8126 (fun t => (t.getV 0x1#4, t.getV 0x2#4, t.getV 0xF#4)) =
      some (0x02#8, 0xFF#8, 0x01#8) := by decide

/-- T-ALU-23: `x = 15` (D11). -/
theorem test_shr_VF :
    see (regs [(0xF#4, 0x05#8)]) 0x8F06 (fun t => t.getV 0xF#4) =
      some 0x02#8 := by decide

/-- T-ALU-19: the result wraps. -/
theorem test_subnReg_wraps :
    see (regs [(0x1#4, 0x0A#8), (0x2#4, 0x03#8), (0xF#4, 0x01#8)]) 0x8127 (fun t => (t.getV 0x1#4, t.getV 0xF#4)) =
      some (0xF9#8, 0x00#8) := by decide

/-- T-ALU-18. -/
theorem test_subnReg :
    see (regs [(0x1#4, 0x03#8), (0x2#4, 0x0A#8)]) 0x8127 (fun t => (t.getV 0x1#4, t.getV 0x2#4, t.getV 0xF#4)) =
      some (0x07#8, 0x0A#8, 0x01#8) := by decide

/-- T-ALU-34: the top bit is the flag, `V2` ignored. -/
theorem test_shl :
    see (regs [(0x1#4, 0x81#8), (0x2#4, 0x33#8)]) 0x812E (fun t => (t.getV 0x1#4, t.getV 0x2#4, t.getV 0xF#4)) =
      some (0x02#8, 0x33#8, 0x01#8) := by decide

/-- T-ALU-42: `x = 15` (D11). -/
theorem test_shl_VF :
    see (regs [(0xF#4, 0xC1#8)]) 0x8F0E (fun t => t.getV 0xF#4) =
      some 0x82#8 := by decide

/-- T-ALU-38. -/
theorem test_rnd :
    see (State.reset.setRandom 0xA7#8) 0xC10F (fun t => (t.getV 0x1#4, t.rndInputs)) =
      some (0x07#8, []) := by decide

/-- T-ALU-41. -/
theorem test_rnd_VF :
    see ((regs [(0xF#4, 0x01#8)]).setRandom 0xFF#8) 0xCFF0 (fun t => t.getV 0xF#4) =
      some 0xF0#8 := by decide

/-- T-MEM-2: the upper bits of `I` are cleared. -/
theorem test_ldI :
    see (State.reset.setI 0x1234#16) 0xAFFF (fun t => t.i) =
      some 0x0FFF#16 := by decide

/-- T-MEM-3: a 16-bit sum, no flag. -/
theorem test_addI :
    see ((regs [(0x1#4, 0x01#8), (0xF#4, 0x09#8)]).setI 0x0FFF#16) 0xF11E (fun t => (t.i, t.getV 0xF#4)) =
      some (0x1000#16, 0x09#8) := by decide

/-- T-MEM-4: wraps modulo 65536, no flag. -/
theorem test_addI_wraps :
    see ((regs [(0x1#4, 0x02#8)]).setI 0xFFFF#16) 0xF11E (fun t => (t.i, t.getV 0xF#4)) =
      some (0x0001#16, 0x00#8) := by decide

/-- T-MEM-6. -/
theorem test_ldF :
    see (regs [(0x1#4, 0x0A#8)]) 0xF129 (fun t => t.i) =
      some 0x0082#16 := by decide

/-- T-MEM-10: the whole byte. -/
theorem test_ldF_whole_byte :
    see (regs [(0x1#4, 0xFF#8)]) 0xF129 (fun t => t.i) =
      some 0x054B#16 := by decide

/-- R103 with `FONT_BASE` = 4016: 4016 + 2 · 5. -/
theorem test_ldF_otherParams :
    see ((State.resetWith otherParams).setV 0x1#4 0x02#8) 0xF129 (fun t => t.i) =
      some 0x0FBA#16 := by decide

/-- T-MEM-14: the document's example. -/
theorem test_ldB :
    see ((regs [(0x1#4, 0x9D#8)]).setI 0x0300#16) 0xF133 (fun t => (t.byteAt 0x300, t.byteAt 0x301, t.byteAt 0x302, t.i)) =
      some (1#8, 5#8, 7#8, 0x0300#16) := by decide

/-- T-MEM-19: `I` is reduced, and the digits wrap. -/
theorem test_ldB_wraps :
    see ((regs [(0x1#4, 0xEA#8)]).setI 0x1FFF#16) 0xF133 (fun t => (t.byteAt 0xFFF, t.byteAt 0x000, t.byteAt 0x001)) =
      some (2#8, 3#8, 4#8) := by decide

/-- T-MEM-21: `V3` is not stored, `I` stays. -/
theorem test_storeRegs :
    see ((regs [(0x0#4, 1#8), (0x1#4, 2#8), (0x2#4, 3#8), (0x3#4, 4#8)]).setI 0x0300#16) 0xF255 (fun t => (t.loadBytes 0x300 4, t.i)) =
      some ([1#8, 2#8, 3#8, 0#8], 0x0300#16) := by decide

/-- T-MEM-28: the instruction's own first byte is stored over after its fetch. -/
theorem test_storeRegs_own_byte :
    see ((regs [(0x0#4, 0x12#8)]).setI 0x0200#16) 0xF055 (fun t => (t.pc, t.loadBytes 0x200 2)) =
      some (0x0202#16, [0x12#8, 0x55#8]) := by decide

/-- T-MEM-23: `V3` stays. -/
theorem test_loadRegs :
    see ((poke (regs [(0x0#4, 0x55#8), (0x3#4, 0x55#8)]) 0x300 [0xA0#8, 0xA1#8, 0xA2#8, 0xA3#8]).setI 0x0300#16) 0xF265 (fun t => (t.getV 0x0#4, t.getV 0x1#4, t.getV 0x2#4, t.getV 0x3#4)) =
      some (0xA0#8, 0xA1#8, 0xA2#8, 0x55#8) := by decide

/-- T-MEM-24: wraps. -/
theorem test_loadRegs_wraps :
    see ((poke State.reset 0xFFE [0x11#8, 0x22#8, 0x33#8, 0x44#8]).setI 0x0FFE#16) 0xF365 (fun t => (t.getV 0x0#4, t.getV 0x1#4, t.getV 0x2#4, t.getV 0x3#4)) =
      some (0x11#8, 0x22#8, 0x33#8, 0x44#8) := by decide

/-- T-DSP-6: wraps at both edges, the most significant bit first. -/
theorem test_drw_wraps :
    see ((poke (regs [(0x0#4, 0x3E#8), (0x1#4, 0x1F#8)]) 0x20C [0xC0#8, 0x81#8]).setI 0x020C#16) 0xD012 (fun t => (t.disp, t.getV 0xF#4)) =
      some ([62, 69, 2046, 2047], 0x00#8) := by decide

/-- T-DSP-12: a partial overlap is a collision. -/
theorem test_drw_collision :
    see ({ ((poke State.reset 0x300 [0xC0#8]).setI 0x0300#16) with disp := [1] }) 0xD011 (fun t => (t.disp, t.getV 0xF#4)) =
      some ([0], 0x01#8) := by decide

/-- T-KT-1. -/
theorem test_skp :
    see ((regs [(0x1#4, 0x05#8)]).setKeys (keysDown [5])) 0xE19E (fun t => t.pc) =
      some 0x0204#16 := by decide

/-- T-KT-2: only key 5 matters. -/
theorem test_skp_others :
    see ((regs [(0x1#4, 0x05#8)]).setKeys (keysDown [0, 1, 2, 3, 4, 6, 7, 8, 9, 10, 11, 12, 13, 14, 15])) 0xE19E (fun t => t.pc) =
      some 0x0202#16 := by decide

/-- T-KT-3. -/
theorem test_sknp_pressed :
    see ((regs [(0x1#4, 0x05#8)]).setKeys (keysDown [5])) 0xE1A1 (fun t => t.pc) =
      some 0x0202#16 := by decide

/-- T-KT-4. -/
theorem test_sknp :
    see (regs [(0x1#4, 0x05#8)]) 0xE1A1 (fun t => t.pc) =
      some 0x0204#16 := by decide

/-- T-KT-7: no key, `PC` stays and the timer ticks. -/
theorem test_ldVxK_waits :
    see ((regs [(0x3#4, 0x77#8)]).setDt 0x03#8) 0xF30A (fun t => (t.pc, t.getV 0x3#4, t.dt)) =
      some (0x0200#16, 0x77#8, 0x02#8) := by decide

/-- T-KT-8: the least pressed key. -/
theorem test_ldVxK :
    see ((regs [(0x3#4, 0x77#8)]).setKeys (keysDown [7, 10])) 0xF30A (fun t => (t.pc, t.getV 0x3#4)) =
      some (0x0202#16, 0x07#8) := by decide

/-- T-KT-11: reads before the tick. -/
theorem test_ldVxDt :
    see (State.reset.setDt 0x2A#8) 0xF107 (fun t => (t.getV 0x1#4, t.dt)) =
      some (0x2A#8, 0x29#8) := by decide

/-- T-KT-14: set, then ticked. -/
theorem test_ldDtVx :
    see (regs [(0x1#4, 0x3C#8)]) 0xF115 (fun t => t.dt) =
      some 0x3B#8 := by decide

/-- T-KT-16. -/
theorem test_ldDtVx_zero :
    see ((regs [(0x1#4, 0x00#8)]).setDt 0x09#8) 0xF115 (fun t => t.dt) =
      some 0x00#8 := by decide

/-- T-KT-17: both timers tick. -/
theorem test_ldStVx :
    see ((regs [(0x1#4, 0x3C#8)]).setDt 0x02#8) 0xF118 (fun t => (t.st, t.dt)) =
      some (0x3B#8, 0x01#8) := by decide

/-- T-KT-18. -/
theorem test_ldStVx_zero :
    see ((regs [(0x1#4, 0x00#8)]).setSt 0x05#8) 0xF118 (fun t => t.st) =
      some 0x00#8 := by decide

/-- T-RUN-2 to T-RUN-6: the host's test compares the 16-bit `PC`, strictly (D15). -/
theorem test_runEnded :
    runEnded 4 (State.reset.setPc 0x0204#16) = false ∧ runEnded 4 (State.reset.setPc 0x0205#16) = true ∧
      runEnded 4 (State.reset.setPc 0x0000#16) = false ∧ runEnded 4 (State.reset.setPc 0x1200#16) = true := by decide

/-- R154 with `PROG_BASE` = 0. -/
theorem test_runEnded_otherParams :
    runEnded 4 ((State.resetWith otherParams).setPc 0x0004#16) = false ∧
      runEnded 4 ((State.resetWith otherParams).setPc 0x0005#16) = true := by decide

/-- R152 with a program that would meet the font, and one that ends before it. -/
theorem test_overlapsFont :
    overlapsFont otherParams 4017 = true ∧ overlapsFont otherParams 4016 = false ∧
      overlapsFont Params.suggested 3584 = false := by decide

/-- R143's thresholds: the last slot of the region is no overflow, the one after it is. -/
theorem test_stackOverflow :
    stackOverflow ((State.reset.setSp 0x0EFE#16).withFetchWord 16 0x2300) = false ∧
      stackOverflow ((State.reset.setSp 0x0EFF#16).withFetchWord 16 0x2300) = true := by decide

/-- R143: a return with nothing pushed is an underflow. -/
theorem test_stackUnderflow :
    stackUnderflow (State.reset.withFetchWord 16 0x00EE) = true ∧
      stackUnderflow ((State.reset.setSp 0x0EA2#16).withFetchWord 16 0x00EE) = false := by decide

/-! Witnesses: for every statement with hypotheses, a state and operands that meet them -/

/-- The bounds of the two clauses, with the font at the top of memory and elsewhere. -/
theorem test_witness_ResetMemoryIsFontAndZeros :
    (79 < 80) ∧ (4015 < 4096 ∧ 4015 < otherParams.fontBase.val) ∧
      (0x0A0 < 4096 ∧ Params.suggested.fontBase.val + 80 ≤ 0x0A0) := by decide

/-- A program that fills memory up to its end, an empty one, and one that ends where the font starts. -/
theorem test_witness_LaunchPlacesProgram :
    ((List.replicate 3584 0x60#8).length ≤ 4096 - Params.suggested.progBase.val ∧
      Params.suggested.fontBase.val + 80 ≤ Params.suggested.progBase.val) ∧
      ([] : List Byte).length ≤ 4096 - Params.suggested.progBase.val ∧
      ((List.replicate 4016 0x60#8).length ≤ 4096 - otherParams.progBase.val ∧
        otherParams.progBase.val + (List.replicate 4016 0x60#8).length ≤ otherParams.fontBase.val) := by
  simp only [List.length_replicate]; decide

/-- A byte of the program, of the font, and one of neither. -/
theorem test_witness_LaunchPlacesProgram_clauses :
    ([0x60#8, 0x05#8] : List Byte)[1]? = some 0x05#8 ∧ (79 < 80) ∧
      ((0x202 < 4096) ∧ Params.suggested.fontBase.val + 80 ≤ 0x202 ∧
        Params.suggested.progBase.val + [0x60#8, 0x05#8].length ≤ 0x202) := by decide

theorem test_witness_LaunchRefusesLongProgram :
    4096 - Params.suggested.progBase.val < (List.replicate 3585 0x60#8).length := by
  rw [List.length_replicate]; decide

/-- A program whose last byte is the font's first. -/
theorem test_witness_LaunchRefusesFontOverlap :
    List.replicate 4017 0x60#8 ≠ [] ∧ (List.replicate 4017 0x60#8).length ≤ 4096 - otherParams.progBase.val ∧
      otherParams.progBase.val < otherParams.fontBase.val + 80 ∧
      otherParams.fontBase.val < otherParams.progBase.val + (List.replicate 4017 0x60#8).length := by
  refine ⟨fun h => absurd (congrArg List.length h) ?_, ?_⟩ <;> simp only [List.length_replicate, List.length_nil] <;> decide

/-- A word of a row, and a word of none. -/
theorem test_witness_DecodeFollowsMaskAndMatch :
    (∃ row ∈ opcodeRows, 0x8127#16 &&& row.mask = row.pattern) ∧
      ∀ row ∈ opcodeRows, 0x5121#16 &&& row.mask ≠ row.pattern := by decide

theorem test_witness_DecodeAfterEncode :
    (Instr.drw 0xF#4 0xF#4 0xF#4).wellFormed = true ∧ (Instr.nop 0x5121#16).wellFormed = true := by decide

theorem test_witness_StepRunsDecodedInstruction :
    let s := State.reset.withFetchWord 16 0x6005
    decodeBytes [s.byteAt s.pc.toNat, s.byteAt (s.pc.toNat + 1)] = .ok (.ldImm 0x0#4 0x05#8, []) ∧
      (Instr.ldImm 0x0#4 0x05#8).wellFormed = true := by decide

theorem test_witness_TimersTickOncePerStep :
    decode (fetchWord (State.reset.withFetchWord 16 0xF107)) = .ldVxDt 0x1#4 ∧
      decode (fetchWord (State.reset.withFetchWord 16 0xF115)) = .ldDtVx 0x1#4 ∧
      decode (fetchWord (State.reset.withFetchWord 16 0xF518)) = .ldStVx 0x5#4 := by decide

theorem test_witness_UnmatchedWordDoesNothing : unmatchedWord (fetchWord State.reset) = true := by decide

/-- A list of the greatest length; a byte of a list that wraps, and an address outside it. -/
theorem test_witness_MemoryPrimitivesReduceAddresses :
    (List.replicate 4096 0x01#8).length ≤ 4096 ∧ ([0x01#8, 0x02#8] : List Byte)[1]? = some 0x02#8 ∧
      (∀ k, k < [0x01#8, 0x02#8].length → 1 % 4096 ≠ (4095 + k) % 4096) := by
  refine ⟨?_, by decide, by decide⟩
  rw [List.length_replicate]

/-- Both sides of each skip's condition. -/
theorem test_witness_skips :
    (regs [(0x3#4, 0x2A#8)]).getV 0x3#4 = 0x2A#8 ∧ (regs [(0x3#4, 0x2A#8)]).getV 0x3#4 ≠ 0x2B#8 ∧
      (regs [(0x3#4, 0x2A#8)]).getV 0x3#4 ≠ (regs [(0x3#4, 0x2A#8)]).getV 0x4#4 ∧
      State.reset.getV 0x3#4 = State.reset.getV 0x4#4 := by decide

/-- The two stored bytes of a call, and an address outside them, with `SP` at the top of memory. -/
theorem test_witness_StoresBytes :
    (returnBytes 0x1000#16)[1]? = some 0x10#8 ∧
      ∀ k, k < (returnBytes 0x1000#16).length → 1 % Config.memSize ≠ (4095 + k) % Config.memSize := by decide

/-- A call to a return, T-CF-3 with the return at its target. -/
theorem test_witness_CallThenReturnComesBack :
    decode (fetchWord ((poke State.reset 0x300 [0x00#8, 0xEE#8]).withFetchWord 16 0x2300)) = .call 0x300#12 ∧
      see (poke State.reset 0x300 [0x00#8, 0xEE#8]) 0x2300 (fun t => decode (fetchWord t)) = some .ret := by decide

/-- Operands with and without a carry, with a difference above, at and below zero, and a destination that is not `VF`. -/
theorem test_witness_AddAndSubtractWithFlag :
    255 + 1 > 255 ∧ ¬(128 + 127 > 255) ∧ 10 > 3 ∧ ¬(7 > 7) ∧ 3 < 10 ∧ (0x1#4 : Reg) ≠ 0xF#4 := by decide

theorem test_witness_RandomByteIsMasked : (State.reset.setRandom 0xA7#8).rndInputs = 0xA7#8 :: [] := by decide

/-- The registers of a store and of a load up to `VE`, the one above them, and an address outside the stored bytes. -/
theorem test_witness_RegistersStored_RegistersLoaded :
    (0xE#4 : Reg).toNat ≤ (0xE#4 : Reg).toNat ∧ (0xE#4 : Reg).toNat < (0xF#4 : Reg).toNat ∧
      ∀ k, k ≤ (0xE#4 : Reg).toNat → 15 % 4096 ≠ (0 + k) % 4096 := by decide

/-- A state after a store, and one with other registers but the same `I` and memory. -/
theorem test_witness_StoreThenLoadRoundTrip :
    ∃ t u : State, exec (.storeRegs 0x2#4) (State.reset.setI 0x0300#16) = .next t ∧ u.i = t.i ∧
      (∀ a, u.byteAt a = t.byteAt a) ∧ u ≠ t :=
  ⟨_, State.setV (poke (State.reset.setI 0x0300#16) 0x300 [0#8, 0#8, 0#8]) 0x1#4 0x55#8, rfl, rfl,
    fun _ => rfl, by decide⟩

/-- T-MEM-26. -/
theorem test_witness_StoreSeenByNextFetch :
    let s := ((regs [(0x0#4, 0x6A#8), (0x1#4, 0x77#8)]).setI 0x0202#16).withFetchWord 16 0xF155
    decode (fetchWord s) = .storeRegs 0x1#4 ∧ 1 ≤ (0x1#4 : Reg).toNat ∧ s.i = s.pc + 2#16 := by decide

/-- A cell under a set bit of a sprite at `I`, T-DSP-3. -/
theorem test_witness_DrawXorsSpriteCells_covered :
    SpriteCovers 0x0#4 0x1#4 0x1#4 ((poke State.reset 0x300 [0x80#8]).setI 0x0300#16) 0 :=
  ⟨0, by decide, 0, by decide, by decide, by decide⟩

/-- With no rows no cell is covered, T-DSP-2. -/
theorem test_witness_DrawXorsSpriteCells_uncovered (c : Nat) : ¬SpriteCovers 0x0#4 0x1#4 0x0#4 State.reset c :=
  fun ⟨_, h, _⟩ => absurd h (Nat.not_lt_zero _)

/-- A lit cell holds a bit of `ON`, a dark one none. -/
theorem test_witness_DrawXorsSpriteCells_flag :
    ({ State.reset with disp := [0] } : State).cell 0 = Config.on ∧ State.reset.cell 0 &&& Config.on = 0#16 :=
  ⟨rfl, BitVec.zero_and⟩

/-- The state a draw gives draws again with the same coordinates, `I`, sprite and display. -/
theorem test_witness_DoubleDrawRestoresDisplay :
    ∃ t, exec (.drw 0x0#4 0x1#4 0x1#4) ((poke State.reset 0x300 [0x80#8]).setI 0x0300#16) = .next t ∧
      t.getV 0x0#4 = 0#8 ∧ t.getV 0x1#4 = 0#8 ∧ t.i = 0x0300#16 ∧
      (∀ row, row < 1 → t.byteAt (0x300 + row) = 0x80#8) ∧ ∀ c, t.cell c = t.cell c :=
  ⟨_, rfl, by decide, by decide, by decide, by decide, fun _ => rfl⟩

/-- Keys given and a number below 16 at its bound; T-KT-5's number above it. -/
theorem test_witness_KeySkipsAskPressed :
    ((regs [(0x1#4, 0x0F#8)]).setKeys (keysDown [15])).keyInputs = [keysDown [15]] ∧
      ((regs [(0x1#4, 0x0F#8)]).getV 0x1#4).toNat < 16 ∧ ¬((regs [(0x1#4, 0x15#8)]).getV 0x1#4).toNat < 16 := by decide

/-- A last key pressed alone, and none pressed. -/
theorem test_witness_KeyWaitTakesLeastKeyOrRewinds :
    (State.reset.setKeys (keysDown [15])).keyInputs = [keysDown [15]] ∧
      (15 < 16 ∧ keySlot (State.reset.setKeys (keysDown [15])) 15 ≠ 0#8 ∧
        ∀ j, j < 15 → keySlot (State.reset.setKeys (keysDown [15])) j = 0#8) ∧
      ∀ k, k < 16 → keySlot State.reset k = 0#8 := by decide

/-- T-KT-7. -/
theorem test_witness_KeyWaitStaysWhileNoKey :
    decode (fetchWord (State.reset.withFetchWord 16 0xF30A)) = .ldVxK 0x3#4 ∧
      ∀ k, k < 16 → keySlot (State.reset.withFetchWord 16 0xF30A) k = 0#8 := by decide

theorem test_witness_RegistersChangeOnlyWhereListed :
    mayWriteReg (.loadRegs 0x2#4) 0x3#4 = false ∧ mayWriteReg (.drw 0x0#4 0x1#4 0x1#4) 0xE#4 = false ∧
      decode (fetchWord (State.reset.withFetchWord 16 0xF265)) = .loadRegs 0x2#4 := by decide

theorem test_witness_IndexStackDisplayWriters :
    let i := decode (fetchWord (State.reset.withFetchWord 16 0xF265))
    writesIndex i = false ∧ writesStackPointer i = false ∧ writesDisplay i = false := by decide

/-- The byte after a store of three at the top of memory. -/
theorem test_witness_MemoryChangesOnlyInStoredRange :
    let s := (State.reset.setI 0x0FFE#16).withFetchWord 16 0xF255
    storedRange (decode (fetchWord s)) s = (0xFFE, 3) ∧ ∀ k, k < 3 → 1 % 4096 ≠ (0xFFE + k) % 4096 := by decide

theorem test_witness_InputsMatterOnlyToTheirReaders :
    readsKeypad (decode (fetchWord (State.reset.withFetchWord 16 0xC1FF))) = false ∧
      readsRandom (decode (fetchWord (State.reset.withFetchWord 16 0xE19E))) = false := by decide

/-- Each clause: CXNN, the key skips with a number at the bound and its slot pressed or not, FX0A with and without a key. -/
theorem test_witness_StepTakesTheGivenInputs :
    decode (fetchWord (State.reset.withFetchWord 16 0xC10F)) = .rnd 0x1#4 0x0F#8 ∧
      decode (fetchWord (State.reset.withFetchWord 16 0xE19E)) = .skp 0x1#4 ∧
      decode (fetchWord (State.reset.withFetchWord 16 0xE1A1)) = .sknp 0x1#4 ∧
      (((regs [(0x1#4, 0x0F#8)]).withFetchWord 16 0xE19E).getV 0x1#4).toNat < 16 ∧
      (keysDown [15])[15] ≠ 0#8 ∧ (keysDown [7])[15] = 0#8 ∧
      decode (fetchWord (State.reset.withFetchWord 16 0xF30A)) = .ldVxK 0x3#4 ∧ (keysDown [7, 10])[7] ≠ 0#8 ∧
      (∀ j, ∀ h : j < 7, (keysDown [7, 10])[j]'(Nat.lt_trans h (by decide)) = 0#8) ∧
      ∀ k, ∀ h : k < 16, (keysDown [])[k]'h = 0#8 := by decide

/-- Other parameters with the same font at the same base. -/
theorem test_witness_StepReadsOnlyFontParameters :
    let q : Params := { otherParams with fontBase := Params.suggested.fontBase, font := Params.suggested.font }
    q.fontBase = State.reset.params.fontBase ∧ q.font = State.reset.params.font ∧ q ≠ State.reset.params := by decide

/-- The least and the greatest key's number, one held down and one not. -/
theorem test_witness_HostKeysArePressed :
    (15 < 16 ∧ 15 ∈ [15]) ∧ ((0x0F#8 : Byte).toNat < 16 ∧ (0x00#8 : Byte).toNat < 16 ∧ (0x00#8 : Byte).toNat ∉ [15]) := by
  decide

/-- A jump to itself. -/
theorem test_witness_JumpSetsAddress :
    let s := State.reset.withFetchWord 16 0x1200
    decode (fetchWord s) = .jp 0x200#12 ∧ s.pc.toNat = (0x200#12 : Addr).toNat := by decide

/-- A state with listed bytes and lit cells at both ends. -/
theorem test_witness_StepKeepsInvariant :
    Inv { State.reset with mem := [(0, 0x01#8), (0x050, 0x12#8), (4095, 0xFF#8)], disp := [0, 2047] } :=
  ⟨by decide, by decide⟩

/-- A run of two steps within the program, and one from past its end. -/
theorem test_witness_HostRunStopsPastEnd :
    (0 < 1 ∧ State.reset.params.progBase.val + 4 < (State.reset.setPc 0x0206#16).pc.toNat) ∧
      Sys2Proof.core.run 0 State.reset = .next State.reset ∧ State.reset.pc.toNat ≤ State.reset.params.progBase.val + 4 :=
  ⟨by decide, rfl, by decide⟩

end Sys2Proof.Tests
end

/-! The machine in another environment: a step reads of the parameters only the font and its base (R23, R151), and of the
keys only which slots hold something other than 0 (R20, R66, D8). -/

namespace Sys2Proof.Machine

/-- The same engine state with other parameters (R5) and other key vectors for the steps to come (R20). -/
def State.inEnv (s : State) (q : Params) (keys : List Keypad) : State := { s with params := q, keyInputs := keys }

/-- The parameters have the same font at the same base, so that unlisted memory reads alike (R151). -/
structure SameFont (p q : Params) : Prop where
  fontBase_eq : p.fontBase = q.fontBase
  font_eq : p.font = q.font

/-- The same keys are pressed at the next step of both states (R20, D8). -/
def SameKeysDown (s u : State) : Prop := ∀ k, k < 16 → (keySlot s k = 0#8 ↔ keySlot u k = 0#8)

theorem SameFont.unlistedByte_eq {p q : Params} (h : SameFont p q) : unlistedByte p = unlistedByte q :=
  unlistedByte_congr h.fontBase_eq h.font_eq

section
variable {s : State} {q : Params} {keys : List Keypad}

/-! What the shared operations do in another environment. -/

theorem skipIf_inEnv (b : Bool) : skipIf b (s.inEnv q keys) = (skipIf b s).inEnv q keys := by cases b <;> rfl

@[simp] theorem skipIf_params (b : Bool) : (skipIf b s).params = s.params := by rw [skipIf_eq, State.setPc_params]

@[simp] theorem skipIf_keyInputs (b : Bool) : (skipIf b s).keyInputs = s.keyInputs := by
  rw [skipIf_eq, State.setPc_keyInputs]

theorem setVs_inEnv (k : Nat) (bs : List Byte) : setVs k bs (s.inEnv q keys) = (setVs k bs s).inEnv q keys := by
  induction bs generalizing k s with
  | nil => rfl
  | cons b bs ih => exact ih (k + 1) (s := s.setV _ b)

@[simp] theorem setVs_params (k : Nat) (bs : List Byte) : (setVs k bs s).params = s.params := by rw [setVs_eq]

@[simp] theorem setVs_keyInputs (k : Nat) (bs : List Byte) : (setVs k bs s).keyInputs = s.keyInputs := by rw [setVs_eq]

theorem State.loadBytes_inEnv (hf : SameFont s.params q) (a n : Nat) :
    (s.inEnv q keys).loadBytes a n = s.loadBytes a n := by
  simp only [State.loadBytes, memRead_congr hf.unlistedByte_eq]; rfl

theorem State.storeBytes_inEnv (hf : SameFont s.params q) (a : Nat) (bs : List Byte) :
    (s.inEnv q keys).storeBytes a bs = (s.storeBytes a bs).inEnv q keys := by
  simp only [State.storeBytes, memWrite_congr hf.unlistedByte_eq]; rfl

theorem State.byteAt_inEnv (hf : SameFont s.params q) (a : Nat) : (s.inEnv q keys).byteAt a = s.byteAt a := by
  simp only [State.byteAt, Memory.read, hf.unlistedByte_eq]; rfl

theorem fetchWord_inEnv (hf : SameFont s.params q) : fetchWord (s.inEnv q keys) = fetchWord s := by
  simp only [fetchWord, State.byteAt_inEnv hf]; rfl

theorem topReturn_inEnv (hf : SameFont s.params q) : topReturn (s.inEnv q keys) = topReturn s := by
  simp only [topReturn, State.byteAt_inEnv hf]; rfl

theorem glyphAddress_congr {p : Params} (hf : SameFont p q) (b : RegByte) : glyphAddress p b = glyphAddress q b := by
  simp only [glyphAddress, hf.fontBase_eq]

/-- Whether a key is pressed depends on its slot being 0 alone; above 15 it depends on no slot (R20, D8, D9). -/
theorem pressed_inEnv (hk : SameKeysDown s (s.inEnv q keys)) (k : RegByte) :
    pressed (s.inEnv q keys) k = pressed s k := by
  unfold pressed
  split
  · next h => exact Bool.eq_iff_iff.2 (by simp [hk _ h])
  · rfl

theorem firstPressed_inEnv (hk : SameKeysDown s (s.inEnv q keys)) : firstPressed (s.inEnv q keys) = firstPressed s := by
  unfold firstPressed
  refine List.find?_congr fun k hmem => Bool.eq_iff_iff.2 ?_
  simp [hk k (by simpa using hmem)]

end

/-- An instruction answers a next state with the parameters and the keys to come unchanged, and in the other environment
it answers that same state there. -/
def RunsAlikeInEnv (q : Params) (keys : List Keypad) (i : Instr) (s : State) : Prop :=
  ∃ t, exec i s = .next t ∧ t.params = s.params ∧ t.keyInputs = s.keyInputs ∧
    exec i (s.inEnv q keys) = .next (t.inEnv q keys)

/-- What a skip asks is the same in both environments, so it skips in both or in neither (R73). -/
theorem runsAlikeInEnv_of_skipIf {q : Params} {keys : List Keypad} {i : Instr} {s : State} (b : Bool)
    (h : exec i s = .next (skipIf b s)) (h' : exec i (s.inEnv q keys) = .next (skipIf b (s.inEnv q keys))) :
    RunsAlikeInEnv q keys i s :=
  ⟨_, h, skipIf_params b, skipIf_keyInputs b, h'.trans (by rw [skipIf_inEnv])⟩

/-- What a store writes and where are the same in both environments, so the memories stay alike (R32). -/
theorem runsAlikeInEnv_of_storeBytes {q : Params} {keys : List Keypad} {i : Instr} {s : State} (hf : SameFont s.params q)
    (a : Nat) (bs : List Byte) (h : exec i s = .next (s.storeBytes a bs))
    (h' : exec i (s.inEnv q keys) = .next ((s.inEnv q keys).storeBytes a bs)) : RunsAlikeInEnv q keys i s :=
  ⟨_, h, rfl, rfl, h'.trans (by rw [State.storeBytes_inEnv hf])⟩

/-- R23, R66: an instruction runs alike under parameters with the same font and, if it reads the keypad, with the same keys
down. The named cases read memory, the font's base or the keys, write memory, or write by a shared operation; the others
are one write of what the registers, the timers, the display or the random byte give. -/
theorem exec_runsAlikeInEnv (i : Instr) (s : State) {q : Params} {keys : List Keypad} (hf : SameFont s.params q)
    (hk : readsKeypad i = true → SameKeysDown s (s.inEnv q keys)) : RunsAlikeInEnv q keys i s := by
  cases i with
  | seImm | sneImm | seReg | sneReg => exact runsAlikeInEnv_of_skipIf _ rfl rfl
  | skp x =>
    refine runsAlikeInEnv_of_skipIf (pressed s (s.getV x)) rfl ?_
    rw [← pressed_inEnv (hk rfl)]; rfl
  | sknp x =>
    refine runsAlikeInEnv_of_skipIf (!pressed s (s.getV x)) rfl ?_
    rw [← pressed_inEnv (hk rfl)]; rfl
  | ldVxK x =>
    simp only [RunsAlikeInEnv, exec, execLdVxK, firstPressed_inEnv (hk rfl)]
    cases firstPressed s with
    | none => exact ⟨_, rfl, rfl, rfl, rfl⟩
    | some k => exact ⟨_, rfl, rfl, rfl, rfl⟩
  | ldB | storeRegs => exact runsAlikeInEnv_of_storeBytes hf _ _ rfl rfl
  | loadRegs x =>
    refine ⟨_, rfl, setVs_params .., setVs_keyInputs .., ?_⟩
    simp only [exec, execLoadRegs, State.loadBytes_inEnv hf, setVs_inEnv]; rfl
  | drw x y n =>
    refine ⟨_, rfl, rfl, rfl, ?_⟩
    simp only [exec, execDrw, drawnCells, State.loadBytes_inEnv hf]; rfl
  | call nnn =>
    refine ⟨_, rfl, rfl, rfl, ?_⟩
    simp only [exec, execCall, pushReturn, State.storeBytes_inEnv hf]; rfl
  | ret =>
    refine ⟨_, rfl, rfl, rfl, ?_⟩
    simp only [exec, execRet, topReturn_inEnv hf]; rfl
  | ldF x =>
    refine ⟨_, rfl, rfl, rfl, ?_⟩
    simp only [exec, execLdF, glyphAddress_congr hf]; rfl
  | _ => exact ⟨_, rfl, rfl, rfl, rfl⟩

/-- R23, R66: a whole step runs alike under parameters with the same font and, if its instruction reads the keypad, with
the same keys down; the keys of the steps to come move on by one in both. -/
theorem step_inEnv (s : State) {q : Params} {keys : List Keypad} (hf : SameFont s.params q)
    (hk : readsKeypad (decode (fetchWord s)) = true → SameKeysDown s (s.inEnv q keys)) :
    ∃ t, step s = .next t ∧ t.params = s.params ∧ t.keyInputs = s.keyInputs.tail ∧
      step (s.inEnv q keys) = .next (t.inEnv q keys.tail) := by
  obtain ⟨u, hu, hparams, hkeys, hu'⟩ := exec_runsAlikeInEnv (decode (fetchWord s)) s.advancePc hf hk
  refine ⟨endStep u, (step_eq_next_iff ..).2 ⟨u, hu, rfl⟩, hparams, congrArg List.tail hkeys, ?_⟩
  refine (step_eq_next_iff ..).2 ⟨u.inEnv q keys, ?_, rfl⟩
  rw [fetchWord_inEnv hf]; exact hu'

/-- A slot that the host fills is 0 exactly when its key is not held down, whatever `KEY_DOWN` is (R137, D8). -/
theorem hostKeys_getD_eq_zero_iff (p : Params) (down : List Nat) {k : Nat} (hk : k < 16) :
    (hostKeys p down).getD k 0#8 = 0#8 ↔ k ∉ down := by
  by_cases h : k ∈ down <;> simp [hostKeys, Vector.getD, hk, h, p.keyDown.property]

/-- Two hosts that hold down the same keys press the same keys, each with its own `KEY_DOWN` (R20, R137, D8). -/
theorem sameKeysDown_hostKeys {s u : State} {p q : Params} {down : List Nat} {ks ls : List Keypad}
    (hs : s.keyInputs = hostKeys p down :: ks) (hu : u.keyInputs = hostKeys q down :: ls) : SameKeysDown s u := by
  intro k hk
  simp only [keySlot, hs, hu, hostKeys_getD_eq_zero_iff _ _ hk]

/-- Settles O56: `KEY_DOWN` is no part of the font, and the two hosts' vectors press the same keys, so the step runs alike
in the environment with the other byte. -/
theorem keyDownIsNotObservable : Obligations.KeyDownIsNotObservable := by
  intro s d down b
  obtain ⟨t, ht, hparams, hkeys, ht'⟩ :=
    step_inEnv ((s.setKeys (hostKeys s.params down)).setRandom b) (q := { s.params with keyDown := d })
      (keys := hostKeys { s.params with keyDown := d } down :: s.keyInputs.tail) ⟨rfl, rfl⟩
      (fun _ => sameKeysDown_hostKeys rfl rfl)
  have hplan : t.keyInputs = s.keyInputs.tail := hkeys
  refine ⟨t, ht, ht'.trans ?_⟩
  rw [List.tail_cons, ← hplan, hparams]; rfl

end Sys2Proof.Machine

/-! What an execute phase and a whole step may change: a contract with one clause per part of the state, proved once of
every instruction, from which the rules of spec/10_state.md follow. -/

namespace Sys2Proof.Machine

/-- What the execute phase of an instruction from `s` to `t` may change (R10 to R17, R23, R32). A part that the instruction
leaves alone meets its clause by definition, so a construction names only the parts that are written. -/
structure ExecContract (i : Instr) (s t : State) : Prop where
  pc_eq : t.pc = nextPc i s := by rfl
  getV_eq : ∀ r, mayWriteReg i r = false → t.getV r = s.getV r := by intros; rfl
  i_eq : writesIndex i = false → t.i = s.i := by intros; rfl
  sp_eq : writesStackPointer i = false → t.sp = s.sp := by intros; rfl
  disp_eq : writesDisplay i = false → t.disp = s.disp := by intros; rfl
  disp_wf : Display.wf s.disp → Display.wf t.disp := by exact id
  mem_eq : ∃ bs : List Byte, bs.length = (storedRange i s).2 ∧
    t.mem = memWrite s.params s.mem (storedRange i s).1 bs := by exact ⟨[], rfl, rfl⟩
  params_eq : t.params = s.params := by rfl

/-- The instruction answers a next state, within its contract. -/
def MeetsContract (i : Instr) (s : State) : Prop := ∃ t, exec i s = .next t ∧ ExecContract i s t

section
variable {i : Instr} {s : State}

/-- An execute phase that sets `PC` and nothing else, as the jumps do (R71, R77). -/
theorem meetsContract_of_setPc (h : exec i s = .next (s.setPc (nextPc i s))) (hmem : storedRange i s = (0, 0)) :
    MeetsContract i s :=
  ⟨_, h, { mem_eq := ⟨[], by rw [hmem]; rfl, rfl⟩ }⟩

/-- An execute phase that is a skip (R73). -/
theorem meetsContract_of_skipIf (b : Bool) (h : exec i s = .next (skipIf b s))
    (hpc : nextPc i s = if b then s.pc + 2#16 else s.pc) (hmem : storedRange i s = (0, 0)) : MeetsContract i s :=
  meetsContract_of_setPc (by rw [h, skipIf_eq, hpc]) hmem

/-- An execute phase that writes registers and nothing else, only those that R10 lists. -/
theorem meetsContract_of_v {v : Vector RegByte Config.numRegs} (h : exec i s = .next { s with v := v })
    (hv : ∀ r, mayWriteReg i r = false → { s with v := v }.getV r = s.getV r)
    (hpc : s.pc = nextPc i s) (hmem : storedRange i s = (0, 0)) : MeetsContract i s :=
  ⟨_, h, { pc_eq := hpc, getV_eq := hv, mem_eq := ⟨[], by rw [hmem]; rfl, rfl⟩ }⟩

end

/-- A register that FX65 does not list is above the registers that it loads (R106). -/
theorem setVs_loadBytes_getV_of_lt (s : State) {x r : Reg} (h : x.toNat < r.toNat) :
    (setVs 0 (s.loadBytes s.i.toNat (x.toNat + 1)) s).getV r = s.getV r := by
  have hlen : 0 + (s.loadBytes s.i.toNat (x.toNat + 1)).length ≤ 16 := by
    have := x.isLt
    rw [State.loadBytes_length]; omega
  rw [setVs_getV 0 _ s hlen, State.loadBytes_getElem?, if_neg (by omega : ¬ r.toNat - 0 < x.toNat + 1)]
  simp

/-- Every instruction in every state answers a next state, and changes of it only what the tables of spec/10_state.md list. -/
theorem exec_meetsContract (i : Instr) (s : State) : MeetsContract i s := by
  cases i with
  | jp | jpV0 | nop => exact meetsContract_of_setPc rfl rfl
  | seImm | sneImm | seReg | sneReg | skp => exact meetsContract_of_skipIf _ rfl (by simp [nextPc]) rfl
  | sknp x => exact meetsContract_of_skipIf _ rfl (by cases h : pressed s (s.getV x) <;> simp [nextPc, h]) rfl
  | ldImm | addImm | ldReg | orReg | andReg | xorReg | rnd | ldVxDt =>
    refine meetsContract_of_v rfl (fun r hr => ?_) rfl rfl
    exact (State.getV_setV ..).trans (if_neg (by simpa [mayWriteReg] using hr))
  | addReg | subReg | shr | subnReg | shl =>
    refine meetsContract_of_v rfl (fun r hr => ?_) rfl rfl
    obtain ⟨hx, hflag⟩ : r ≠ _ ∧ r ≠ flagReg := by simpa [mayWriteReg] using hr
    exact (writeFlagThenResult_getV ..).trans ((if_neg hx).trans (if_neg hflag))
  | loadRegs x =>
    refine meetsContract_of_v (congrArg Host.Outcome.next (setVs_eq ..)) (fun r hr => ?_) rfl rfl
    exact setVs_loadBytes_getV_of_lt s (by simpa [mayWriteReg] using hr)
  | ldVxK x =>
    cases hk : firstPressed s with
    | none => exact meetsContract_of_setPc (by simp [exec, execLdVxK, nextPc, hk, State.rewindPc]) rfl
    | some k =>
      refine meetsContract_of_v (by simp only [exec, execLdVxK, hk]; rfl) (fun r hr => ?_) (by simp [nextPc, hk]) rfl
      exact (State.getV_setV ..).trans (if_neg (by simpa [mayWriteReg] using hr))
  | cls => exact ⟨_, rfl, { disp_eq := nofun, disp_wf := fun _ => Display.wf_nil }⟩
  | drw x y n =>
    refine ⟨_, rfl, { getV_eq := fun r hr => ?_, disp_eq := nofun, disp_wf := fun h => ?_ }⟩
    · exact (State.getV_setV ..).trans (if_neg (by simpa [mayWriteReg] using hr))
    · exact drawCells_wf h (spriteCells_lt _ _ _ _)
  | ret => exact ⟨_, rfl, { sp_eq := nofun }⟩
  | call nnn => exact ⟨_, rfl, { sp_eq := nofun, mem_eq := ⟨_, rfl, rfl⟩ }⟩
  | ldI | addI | ldF => exact ⟨_, rfl, { i_eq := nofun }⟩
  | ldB x => exact ⟨_, rfl, { mem_eq := ⟨_, rfl, rfl⟩ }⟩
  | storeRegs x => exact ⟨_, rfl, { mem_eq := ⟨_, regsUpTo_length .., rfl⟩ }⟩
  | ldDtVx | ldStVx => exact ⟨_, rfl, {}⟩

/-- A contract keeps the invariant: memory changes by `MemWrite` alone (R32), the display within its cells (R17). -/
theorem ExecContract.inv {i : Instr} {s t : State} (c : ExecContract i s t) (h : Inv s) : Inv t := by
  obtain ⟨hmem, hdisp⟩ := h
  obtain ⟨bs, -, hbs⟩ := c.mem_eq
  refine ⟨?_, c.disp_wf hdisp⟩
  rw [c.params_eq, hbs]
  exact memWrite_wf hmem _ bs

/-- A whole step is its instruction's contract from the state with `PC` advanced, and then the end of the step (R60). -/
theorem step_meetsContract (s : State) :
    ∃ u, step s = .next (endStep u) ∧ ExecContract (decode (fetchWord s)) s.advancePc u := by
  obtain ⟨u, hu, hc⟩ := exec_meetsContract (decode (fetchWord s)) s.advancePc
  exact ⟨u, (step_eq_next_iff ..).2 ⟨u, hu, rfl⟩, hc⟩

/-- Settles O49: the contract's clauses for memory and display keep their canonical forms, and the end of a step touches
neither. -/
theorem stepKeepsInvariant : Obligations.StepKeepsInvariant := by
  intro s hs
  obtain ⟨u, hstep, hc⟩ := step_meetsContract s
  exact ⟨endStep u, hstep, hc.inv hs⟩

/-- Settles O14, by the contract's clause for `PC`. -/
theorem programCounterAfterStep : Obligations.ProgramCounterAfterStep := by
  intro s
  obtain ⟨u, hstep, hc⟩ := step_meetsContract s
  exact ⟨endStep u, hstep, hc.pc_eq⟩

/-- Settles O43, by the contract's clause for the general registers. -/
theorem registersChangeOnlyWhereListed : Obligations.RegistersChangeOnlyWhereListed := by
  intro s
  obtain ⟨u, hstep, hc⟩ := step_meetsContract s
  exact ⟨endStep u, hstep, hc.getV_eq⟩

/-- Settles O44, by the contract's clauses for `I`, `SP` and the display; the cells read the same where the lit cells are. -/
theorem indexStackDisplayWriters : Obligations.IndexStackDisplayWriters := by
  intro s
  obtain ⟨u, hstep, hc⟩ := step_meetsContract s
  refine ⟨endStep u, hstep, hc.i_eq, hc.sp_eq, fun hw c => ?_⟩
  have hdisp : (endStep u).disp = s.disp := hc.disp_eq hw
  rw [State.cell, State.cell, hdisp]

/-- Settles O53, by the contract's clause for the parameters. -/
theorem stepKeepsParameters : Obligations.StepKeepsParameters := by
  refine ⟨fun i s => ?_, fun s => ?_⟩
  · obtain ⟨t, ht, hc⟩ := exec_meetsContract i s
    exact ⟨t, ht, hc.params_eq⟩
  · obtain ⟨u, hstep, hc⟩ := step_meetsContract s
    exact ⟨endStep u, hstep, hc.params_eq⟩

/-- Settles O54: the step in the environment that has the other parameters and the state's own keys. -/
theorem stepReadsOnlyFontParameters : Obligations.StepReadsOnlyFontParameters := by
  intro s q hbase hfont
  obtain ⟨t, ht, -, hkeys, ht'⟩ :=
    step_inEnv s (q := q) (keys := s.keyInputs) ⟨hbase.symm, hfont.symm⟩ (fun _ _ _ => Iff.rfl)
  refine ⟨t, ht, ht'.trans ?_⟩
  rw [← hkeys]; rfl

/-! The reset state (R24, R150, R151). -/

/-- Every register is 0 at reset (R24, D14). -/
theorem resetWith_getV (p : Params) (r : Reg) : (State.resetWith p).getV r = 0#8 := by
  simp [State.getV, State.resetWith]

/-- Every key slot of the first step is released (R20, D14). -/
theorem resetWith_keySlot (p : Params) {k : Nat} (hk : k < 16) : keySlot (State.resetWith p) k = 0#8 := by
  simp [keySlot, State.resetWith, allReleased, Vector.getD, hk]

/-- An unlisted byte of the font's region is the font's (R151). -/
theorem unlistedByte_font (p : Params) {k : Nat} (hk : k < 80) : unlistedByte p (p.fontBase.val + k) = p.font[k]'hk := by
  simp [unlistedByte, Vector.getD, hk]

/-- An unlisted byte outside the font's region is 0 (R24, D14). -/
theorem unlistedByte_of_outside (p : Params) {a : Nat} (ha : a < p.fontBase.val ∨ p.fontBase.val + 80 ≤ a) :
    unlistedByte p a = 0#8 :=
  if_neg (by simp only [Config.fontBytes_eq]; omega)

/-- Settles O1: the two bases are below 4096, so their 16-bit words are the numbers themselves. -/
theorem resetRegistersAndDisplay : Obligations.ResetRegistersAndDisplay := by
  refine ⟨fun p => ⟨?_, ?_, resetWith_getV p, rfl, rfl, rfl, fun c => rfl, fun k hk => resetWith_keySlot p hk, rfl⟩, rfl⟩
  · exact Nat.mod_eq_of_lt (p.progBase.isLt.trans (by decide))
  · exact Nat.mod_eq_of_lt (p.stackBase.isLt.trans (by decide))

/-- Settles O2: nothing is listed at reset, so every byte reads as unlisted; the font's region lies within memory. -/
theorem resetMemoryIsFontAndZeros : Obligations.ResetMemoryIsFontAndZeros := by
  refine fun p => ⟨fun k hk => ?_, fun a ha hout => ?_⟩
  · have hlt : p.fontBase.val + k < Config.memSize := (Nat.add_lt_add_left hk _).trans_le p.fontBase_add_le
    rw [resetWith_byteAt, Nat.mod_eq_of_lt hlt, unlistedByte_font p hk]
  · rw [resetWith_byteAt, Nat.mod_eq_of_lt (show a < Config.memSize from ha), unlistedByte_of_outside p hout]

/-- Settles O17: a cell is read as `ON` if it is lit and as 0 if not. -/
theorem cellsHoldZeroOrOn : Obligations.CellsHoldZeroOrOn := by
  refine ⟨on_ne_zero, fun s c => ?_⟩
  cases h : Display.lit s.disp c with
  | true => exact .inr (if_pos h)
  | false => exact .inl (by simp [State.cell, h])

/-- Settles O48: nothing is listed in memory and no cell is lit. -/
theorem invariantAtReset : Obligations.InvariantAtReset :=
  ⟨⟨reset_mem_wf, reset_disp_wf⟩, fun p => ⟨resetWith_mem_wf p, resetWith_disp_wf p⟩⟩

end Sys2Proof.Machine

/-! The memory primitives and the stores of a step (R31, R32, R41). -/

namespace Sys2Proof.Machine

/-- What a store of registers leaves in memory: register `k` at the `k`-th address (R105). -/
theorem State.storeBytes_regsUpTo_byteAt (s : State) (a : Nat) {x : Reg} {k : Nat} (hk : k ≤ x.toNat) :
    (s.storeBytes a (regsUpTo s x)).byteAt (a + k) = s.getV (BitVec.ofNat 4 k) := by
  have hlen : (regsUpTo s x).length ≤ Config.memSize := by
    rw [regsUpTo_length]
    exact x.isLt.trans (by decide)
  exact State.storeBytes_byteAt s a _ hlen k _ ((regsUpTo_getElem? s x k).trans (if_pos hk))

/-- The execute phase leaves every byte outside the stored range (R32). -/
theorem ExecContract.byteAt_of_outside {i : Instr} {s t : State} (c : ExecContract i s t) {a : Nat}
    (h : ∀ k, k < (storedRange i s).2 → a % Config.memSize ≠ ((storedRange i s).1 + k) % Config.memSize) :
    t.byteAt a = s.byteAt a := by
  obtain ⟨bs, hlen, hmem⟩ := c.mem_eq
  rw [State.byteAt, c.params_eq, hmem]
  exact read_memWrite_of_outside _ _ _ _ _ (hlen ▸ h)

/-- Where an instruction stores depends on `I` and `SP`, and not on `PC` (R32). -/
@[simp] theorem storedRange_advancePc (i : Instr) (s : State) : storedRange i s.advancePc = storedRange i s := rfl

/-- Settles O16, by the laws of `MemWrite` and `MemRead`, of which a read reduces its own address. -/
theorem memoryPrimitivesReduceAddresses : Obligations.MemoryPrimitivesReduceAddresses := by
  refine ⟨fun p m addr bs hlen => ⟨fun k b hk => ?_, ?_⟩, fun p m addr n => ⟨memRead_length p m addr n, fun k hk => ?_⟩⟩
  · exact (Memory.read_mod ..).trans (read_memWrite p m addr bs hlen k b hk)
  · exact read_memWrite_of_outside p m addr bs
  · rw [memRead_getElem?, if_pos hk]
    exact congrArg some (Memory.read_mod ..).symm

/-- Settles O45, by the contract's clause for memory. -/
theorem memoryChangesOnlyInStoredRange : Obligations.MemoryChangesOnlyInStoredRange := by
  intro s
  obtain ⟨u, hstep, hc⟩ := step_meetsContract s
  exact ⟨endStep u, hstep, fun a ha => hc.byteAt_of_outside (by rwa [storedRange_advancePc])⟩

/-- A step whose word is FX55 stores the registers from `I` on (R105). -/
theorem step_of_decode_storeRegs {s : State} {x : Reg} (h : decode (fetchWord s) = .storeRegs x) :
    step s = .next (endStep (s.advancePc.storeBytes s.i.toNat (regsUpTo s.advancePc x))) :=
  (step_eq_next_iff ..).2 ⟨_, congrArg (exec · s.advancePc) h, rfl⟩

/-- Settles O35: the next `PC` is `I`, where the store has put `V[0]` and, one byte further, `V[1]`. -/
theorem storeSeenByNextFetch : Obligations.StoreSeenByNextFetch := by
  intro s x hdecode hx hi
  have hhigh := s.advancePc.storeBytes_regsUpTo_byteAt s.i.toNat (Nat.zero_le x.toNat)
  have hlow := s.advancePc.storeBytes_regsUpTo_byteAt s.i.toNat hx
  refine ⟨_, step_of_decode_storeRegs hdecode, ?_⟩
  rw [fetchWord, wordOfBytes_toNat]
  simp only [endStep_pc, endStep_byteAt, State.storeBytes_pc, State.advancePc_pc, ← hi]
  rw [Nat.add_zero] at hhigh
  rw [hhigh, hlow, State.advancePc_getV, State.advancePc_getV]

end Sys2Proof.Machine

/-! The fields of a word as numbers, and how they are put together (R51). -/

namespace Sys2Proof

section
variable (w : Word)

theorem opField_toNat : (opField w).toNat = w.toNat / 4096 := by
  have hop : w.toNat / 4096 < 16 := Nat.div_lt_of_lt_mul w.isLt
  rw [opField, BitVec.extractLsb'_toNat, Nat.shiftRight_eq_div_pow]
  exact Nat.mod_eq_of_lt hop

theorem xField_toNat : (xField w).toNat = w.toNat / 256 % 16 := by
  rw [xField, BitVec.extractLsb'_toNat, Nat.shiftRight_eq_div_pow]

theorem yField_toNat : (yField w).toNat = w.toNat / 16 % 16 := by
  rw [yField, BitVec.extractLsb'_toNat, Nat.shiftRight_eq_div_pow]

theorem nField_toNat : (nField w).toNat = w.toNat % 16 := BitVec.extractLsb'_toNat ..

theorem nnField_toNat : (nnField w).toNat = w.toNat % 256 := BitVec.extractLsb'_toNat ..

theorem nnnField_toNat : (nnnField w).toNat = w.toNat % 4096 := BitVec.extractLsb'_toNat ..

theorem yField_append_nField : yField w ++ nField w = nnField w :=
  BitVec.extractLsb'_append_extractLsb'_eq_extractLsb' rfl

theorem xField_append_yField : xField w ++ yField w = w.extractLsb' 4 8 :=
  BitVec.extractLsb'_append_extractLsb'_eq_extractLsb' rfl

theorem xField_append_yField_append_nField : xField w ++ yField w ++ nField w = nnnField w := by
  rw [xField_append_yField]
  exact BitVec.extractLsb'_append_extractLsb'_eq_extractLsb' rfl

theorem digits_append : opField w ++ xField w ++ yField w ++ nField w = w := by
  have hopx : opField w ++ xField w = w.extractLsb' 8 8 := BitVec.extractLsb'_append_extractLsb'_eq_extractLsb' rfl
  have hopxy : w.extractLsb' 8 8 ++ yField w = w.extractLsb' 4 12 :=
    BitVec.extractLsb'_append_extractLsb'_eq_extractLsb' rfl
  rw [hopx, hopxy]
  exact BitVec.extractLsb'_append_extractLsb'

end

/-- Settles O51: a bit range as a number is a quotient and a remainder, and adjacent bit ranges append to one. -/
theorem fieldsAreBitRanges : Obligations.FieldsAreBitRanges := fun w =>
  ⟨opField_toNat w, xField_toNat w, yField_toNat w, nField_toNat w, nnField_toNat w, nnnField_toNat w,
    (yField_append_nField w).symm, (xField_append_yField_append_nField w).symm, (digits_append w).symm⟩

end Sys2Proof

/-! The no-ops (R56), and encoding and decoding as each other's inverse. -/

namespace Sys2Proof

section
variable {w : Word}

/-! A word put together from operand fields of `w` (R52) is `w` where its fixed digits are those of `w`. -/

theorem wordA_eq_self_iff (op : Nibble) : wordA op (nnnField w) = w ↔ opField w = op := by
  refine ⟨fun h => by rw [← h, opField_wordA], ?_⟩
  rintro rfl
  exact wordA_fields w

theorem wordXI_eq_self_iff (op : Nibble) (nn : Byte) :
    wordXI op (xField w) nn = w ↔ opField w = op ∧ nnField w = nn := by
  refine ⟨fun h => ⟨by rw [← h, opField_wordXI], by rw [← h, nnField_wordXI]⟩, ?_⟩
  rintro ⟨rfl, rfl⟩
  exact wordXI_fields w

theorem wordXI_nnField_eq_self_iff (op : Nibble) : wordXI op (xField w) (nnField w) = w ↔ opField w = op := by
  rw [wordXI_eq_self_iff, and_iff_left rfl]

theorem wordXYN_eq_self_iff (op n : Nibble) :
    wordXYN op (xField w) (yField w) n = w ↔ opField w = op ∧ nField w = n := by
  refine ⟨fun h => ⟨by rw [← h, opField_wordXYN], by rw [← h, nField_wordXYN]⟩, ?_⟩
  rintro ⟨rfl, rfl⟩
  exact wordXYN_fields w

theorem wordXYN_nField_eq_self_iff (op : Nibble) :
    wordXYN op (xField w) (yField w) (nField w) = w ↔ opField w = op := by
  rw [wordXYN_eq_self_iff, and_iff_left rfl]

/-! The no-ops of a family with sub-opcodes are the words that R56 lists for it (D12). -/

theorem decodeFamily0_eq_nop_iff (h : opField w = 0x0#4) : decodeFamily0 w = .nop w ↔ unmatchedWord w = true := by
  unfold decodeFamily0
  split_ifs with hcls hret
  · simp [unmatchedWord_eq, eq_00E0_iff.1 hcls]
  · simp [unmatchedWord_eq, eq_00EE_iff.1 hret]
  · rw [eq_00E0_iff] at hcls
    rw [eq_00EE_iff] at hret
    simp only [unmatchedWord_eq, h, Bool.not_eq_true', Bool.and_eq_false_iff, Bool.or_eq_false_iff, beq_eq_false_iff_ne]
    tauto

theorem decodeFamily8_eq_nop_iff (h : opField w = 0x8#4) : decodeFamily8 w = .nop w ↔ unmatchedWord w = true := by
  rcases nibble_cases (nField w) with hn | hn | hn | hn | hn | hn | hn | hn | hn | hn | hn | hn | hn | hn | hn | hn <;>
    simp [decodeFamily8, unmatchedWord_eq, h, hn]

theorem decodeFamilyE_eq_nop_iff (h : opField w = 0xE#4) : decodeFamilyE w = .nop w ↔ unmatchedWord w = true := by
  unfold decodeFamilyE
  split <;> simp_all [unmatchedWord_eq]

theorem decodeFamilyF_eq_nop_iff (h : opField w = 0xF#4) : decodeFamilyF w = .nop w ↔ unmatchedWord w = true := by
  unfold decodeFamilyF
  split <;> simp_all [unmatchedWord_eq]

/-- A word decodes to the no-op where R56 lists it, family by family. -/
theorem decode_eq_nop_iff : decode w = .nop w ↔ unmatchedWord w = true := by
  rcases nibble_cases (opField w) with h | h | h | h | h | h | h | h | h | h | h | h | h | h | h | h
  · rw [decode_op0 h, decodeFamily0_eq_nop_iff h]
  · simp [decode_op1 h, unmatchedWord_eq, h]
  · simp [decode_op2 h, unmatchedWord_eq, h]
  · simp [decode_op3 h, unmatchedWord_eq, h]
  · simp [decode_op4 h, unmatchedWord_eq, h]
  · simp [decode_op5 h, unmatchedWord_eq, h]
  · simp [decode_op6 h, unmatchedWord_eq, h]
  · simp [decode_op7 h, unmatchedWord_eq, h]
  · rw [decode_op8 h, decodeFamily8_eq_nop_iff h]
  · simp [decode_op9 h, unmatchedWord_eq, h]
  · simp [decode_opA h, unmatchedWord_eq, h]
  · simp [decode_opB h, unmatchedWord_eq, h]
  · simp [decode_opC h, unmatchedWord_eq, h]
  · simp [decode_opD h, unmatchedWord_eq, h]
  · rw [decode_opE h, decodeFamilyE_eq_nop_iff h]
  · rw [decode_opF h, decodeFamilyF_eq_nop_iff h]

/-! Encoding gives back the word that a family's decoder read: the digits that select the instruction are its own. -/

theorem encode_decodeFamily0 : encode (decodeFamily0 w) = w := by
  unfold decodeFamily0
  split_ifs with hcls hret
  · exact hcls.symm
  · exact hret.symm
  · rfl

theorem encode_decodeFamily8 (h : opField w = 0x8#4) : encode (decodeFamily8 w) = w := by
  unfold decodeFamily8
  split <;> simp only [encode, wordXYN_eq_self_iff, h, true_and] <;> assumption

theorem encode_decodeFamilyE (h : opField w = 0xE#4) : encode (decodeFamilyE w) = w := by
  unfold decodeFamilyE
  split <;> simp only [encode, wordXI_eq_self_iff, h, true_and] <;> assumption

theorem encode_decodeFamilyF (h : opField w = 0xF#4) : encode (decodeFamilyF w) = w := by
  unfold decodeFamilyF
  split <;> simp only [encode, wordXI_eq_self_iff, h, true_and] <;> assumption

end

/-- Decoding loses no bit, family by family. -/
theorem encode_decode (w : Word) : encode (decode w) = w := by
  rcases nibble_cases (opField w) with h | h | h | h | h | h | h | h | h | h | h | h | h | h | h | h
  · rw [decode_op0 h, encode_decodeFamily0]
  · rw [decode_op1 h, encode, wordA_eq_self_iff, h]
  · rw [decode_op2 h, encode, wordA_eq_self_iff, h]
  · rw [decode_op3 h, encode, wordXI_nnField_eq_self_iff, h]
  · rw [decode_op4 h, encode, wordXI_nnField_eq_self_iff, h]
  · rw [decode_op5 h]
    split_ifs with hn
    exacts [(wordXYN_eq_self_iff ..).2 ⟨h, hn⟩, rfl]
  · rw [decode_op6 h, encode, wordXI_nnField_eq_self_iff, h]
  · rw [decode_op7 h, encode, wordXI_nnField_eq_self_iff, h]
  · rw [decode_op8 h, encode_decodeFamily8 h]
  · rw [decode_op9 h]
    split_ifs with hn
    exacts [(wordXYN_eq_self_iff ..).2 ⟨h, hn⟩, rfl]
  · rw [decode_opA h, encode, wordA_eq_self_iff, h]
  · rw [decode_opB h, encode, wordA_eq_self_iff, h]
  · rw [decode_opC h, encode, wordXI_nnField_eq_self_iff, h]
  · rw [decode_opD h, encode, wordXYN_nField_eq_self_iff, h]
  · rw [decode_opE h, encode_decodeFamilyE h]
  · rw [decode_opF h, encode_decodeFamilyF h]

/-- The one check on an instruction is that of a no-op's word (R53, R57). -/
theorem wellFormed_iff (i : Instr) : i.wellFormed = true ↔ ∀ w, i = .nop w → unmatchedWord w = true := by
  cases i <;> simp [Instr.wellFormed]

theorem decode_wellFormed (w : Word) : (decode w).wellFormed = true := by
  refine (wellFormed_iff _).2 fun v hv => ?_
  have hvw : v = w := by simpa [hv, encode] using encode_decode w
  exact decode_eq_nop_iff.1 (hvw ▸ hv)

/-- Encoding loses no operand: by format (R52), the digits of the encoded word select the instruction's row, and its fields
are the operands. -/
theorem decode_encode {i : Instr} (hi : i.wellFormed = true) : decode (encode i) = i := by
  cases i with
  | cls | ret => rfl
  | jp | call | ldI | jpV0 | seImm | sneImm | ldImm | addImm | rnd | seReg | sneReg | drw => simp [encode, decode]
  | ldReg | orReg | andReg | xorReg | addReg | subReg | shr | subnReg | shl => simp [encode, decode_op8, decodeFamily8]
  | skp | sknp => simp [encode, decode_opE, decodeFamilyE]
  | ldVxDt | ldDtVx | ldStVx | addI | ldF | ldB | storeRegs | loadRegs | ldVxK =>
    simp [encode, decode_opF, decodeFamilyF]
  | nop w => exact decode_eq_nop_iff.2 hi

/-- Settles O8: an instruction's word holds its row's digits and its operands. -/
theorem decodeAfterEncode : Obligations.DecodeAfterEncode := fun _ hi => decode_encode hi

/-- Settles O7, by the decoder's families. -/
theorem unmatchedWordsAreTheNops : Obligations.UnmatchedWordsAreTheNops := fun _ => decode_eq_nop_iff

/-- Settles O9: the digits that select a row are those its instructions encode, and the no-ops are R56's words. -/
theorem encodeAfterDecode : Obligations.EncodeAfterDecode := fun w => ⟨encode_decode w, decode_wellFormed w⟩

end Sys2Proof

/-! The opcode map (R54, R55): every row reads the instructions of its own words. -/

namespace Sys2Proof

/-- What a row builds from a word is well-formed, and it is encoded to that same word where the row matches it. -/
structure OpcodeRow.IsSound (row : OpcodeRow) : Prop where
  build_wellFormed : ∀ w, (row.build w).wellFormed = true
  encode_build_iff : ∀ w, encode (row.build w) = w ↔ w &&& row.mask = row.pattern

namespace OpcodeRow

section
variable {pattern : Word} {build : Word → Instr}

/-- A row that fixes all 16 bits. -/
theorem isSound_word (hb : ∀ w, (build w).wellFormed = true := by intro; rfl)
    (he : ∀ w, encode (build w) = pattern := by intro; rfl) : IsSound ⟨0xFFFF#16, pattern, build⟩ := by
  refine ⟨hb, fun w => ?_⟩
  have hmask : w &&& 0xFFFF#16 = w := BitVec.and_allOnes
  rw [he, hmask, eq_comm]

/-- A row whose mask is the family's digit (formats `A`, `XI`, `XYN`). -/
theorem isSound_family (op : Nibble) (he : ∀ w, encode (build w) = w ↔ opField w = op)
    (hp : wordA op 0#12 = pattern := by rfl) (hb : ∀ w, (build w).wellFormed = true := by intro; rfl) :
    IsSound ⟨0xF000#16, pattern, build⟩ :=
  ⟨hb, fun w => by rw [he, ← hp, and_F000_eq_iff]⟩

/-- A row whose mask is the family's digit and the low digit (format `XY`). -/
theorem isSound_lowDigit (op n : Nibble) (hp : wordXYN op 0#4 0#4 n = pattern := by rfl)
    (hb : ∀ w, (build w).wellFormed = true := by intro; rfl)
    (he : ∀ w, encode (build w) = wordXYN op (xField w) (yField w) n := by intro; rfl) :
    IsSound ⟨0xF00F#16, pattern, build⟩ :=
  ⟨hb, fun w => by rw [he, wordXYN_eq_self_iff, ← hp, and_F00F_eq_iff]⟩

/-- A row whose mask is the family's digit and the low byte (format `X`). -/
theorem isSound_lowByte (op : Nibble) (nn : Byte) (hp : wordXI op 0#4 nn = pattern := by rfl)
    (hb : ∀ w, (build w).wellFormed = true := by intro; rfl)
    (he : ∀ w, encode (build w) = wordXI op (xField w) nn := by intro; rfl) :
    IsSound ⟨0xF0FF#16, pattern, build⟩ :=
  ⟨hb, fun w => by rw [he, wordXI_eq_self_iff, ← hp, and_F0FF_eq_iff]⟩

end

theorem isSound_of_mem_control : ∀ row ∈ opcodeRowsControl, row.IsSound := by
  simp only [opcodeRowsControl, List.forall_mem_cons]
  exact ⟨isSound_word, isSound_word,
    isSound_family 0x1#4 fun _ => wordA_eq_self_iff _,
    isSound_family 0x2#4 fun _ => wordA_eq_self_iff _,
    isSound_family 0x3#4 fun _ => wordXI_nnField_eq_self_iff _,
    isSound_family 0x4#4 fun _ => wordXI_nnField_eq_self_iff _,
    isSound_lowDigit 0x5#4 0x0#4,
    isSound_lowDigit 0x9#4 0x0#4,
    isSound_family 0x6#4 fun _ => wordXI_nnField_eq_self_iff _,
    isSound_family 0x7#4 fun _ => wordXI_nnField_eq_self_iff _,
    List.forall_mem_nil _⟩

theorem isSound_of_mem_alu : ∀ row ∈ opcodeRowsAlu, row.IsSound := by
  simp only [opcodeRowsAlu, List.forall_mem_cons]
  exact ⟨isSound_lowDigit 0x8#4 0x0#4, isSound_lowDigit 0x8#4 0x1#4, isSound_lowDigit 0x8#4 0x2#4,
    isSound_lowDigit 0x8#4 0x3#4, isSound_lowDigit 0x8#4 0x4#4, isSound_lowDigit 0x8#4 0x5#4,
    isSound_lowDigit 0x8#4 0x6#4, isSound_lowDigit 0x8#4 0x7#4, isSound_lowDigit 0x8#4 0xE#4, List.forall_mem_nil _⟩

theorem isSound_of_mem_middle : ∀ row ∈ opcodeRowsMiddle, row.IsSound := by
  simp only [opcodeRowsMiddle, List.forall_mem_cons]
  exact ⟨isSound_family 0xA#4 fun _ => wordA_eq_self_iff _,
    isSound_family 0xB#4 fun _ => wordA_eq_self_iff _,
    isSound_family 0xC#4 fun _ => wordXI_nnField_eq_self_iff _,
    isSound_family 0xD#4 fun _ => wordXYN_nField_eq_self_iff _,
    isSound_lowByte 0xE#4 0x9E#8,
    isSound_lowByte 0xE#4 0xA1#8,
    List.forall_mem_nil _⟩

theorem isSound_of_mem_F : ∀ row ∈ opcodeRowsF, row.IsSound := by
  simp only [opcodeRowsF, List.forall_mem_cons]
  exact ⟨isSound_lowByte 0xF#4 0x07#8, isSound_lowByte 0xF#4 0x15#8, isSound_lowByte 0xF#4 0x18#8,
    isSound_lowByte 0xF#4 0x1E#8, isSound_lowByte 0xF#4 0x29#8, isSound_lowByte 0xF#4 0x33#8,
    isSound_lowByte 0xF#4 0x55#8, isSound_lowByte 0xF#4 0x65#8, isSound_lowByte 0xF#4 0x0A#8, List.forall_mem_nil _⟩

theorem isSound_of_mem : ∀ row ∈ opcodeRows, row.IsSound := by
  simp only [opcodeRows, List.forall_mem_append]
  exact ⟨⟨⟨isSound_of_mem_control, isSound_of_mem_alu⟩, isSound_of_mem_middle⟩, isSound_of_mem_F⟩

/-- Decoder and row agree on a word where the row's instruction is encoded to that word. -/
theorem IsSound.decode_eq_build_iff {row : OpcodeRow} (h : row.IsSound) (w : Word) :
    decode w = row.build w ↔ w &&& row.mask = row.pattern := by
  rw [← h.encode_build_iff]
  constructor
  · intro hdecode
    rw [← hdecode, encode_decode]
  · intro hencode
    calc decode w = decode (encode (row.build w)) := by rw [hencode]
      _ = row.build w := decode_encode (h.build_wellFormed w)

end OpcodeRow

open Laws in
/-- Every instruction's word stands under a row of R54 or is one of R56's. -/
theorem rowOf_statement : ∀ i : Instr, RowOf.Statement i
  | .cls => RowOf.cls
  | .ret => RowOf.ret
  | .jp nnn => RowOf.jp nnn
  | .call nnn => RowOf.call nnn
  | .seImm x nn => RowOf.seImm x nn
  | .sneImm x nn => RowOf.sneImm x nn
  | .seReg x y => RowOf.seReg x y
  | .sneReg x y => RowOf.sneReg x y
  | .ldImm x nn => RowOf.ldImm x nn
  | .addImm x nn => RowOf.addImm x nn
  | .ldReg x y => RowOf.ldReg x y
  | .orReg x y => RowOf.orReg x y
  | .andReg x y => RowOf.andReg x y
  | .xorReg x y => RowOf.xorReg x y
  | .addReg x y => RowOf.addReg x y
  | .subReg x y => RowOf.subReg x y
  | .shr x y => RowOf.shr x y
  | .subnReg x y => RowOf.subnReg x y
  | .shl x y => RowOf.shl x y
  | .ldI nnn => RowOf.ldI nnn
  | .jpV0 nnn => RowOf.jpV0 nnn
  | .rnd x nn => RowOf.rnd x nn
  | .drw x y n => RowOf.drw x y n
  | .skp x => RowOf.skp x
  | .sknp x => RowOf.sknp x
  | .ldVxDt x => RowOf.ldVxDt x
  | .ldDtVx x => RowOf.ldDtVx x
  | .ldStVx x => RowOf.ldStVx x
  | .addI x => RowOf.addI x
  | .ldF x => RowOf.ldF x
  | .ldB x => RowOf.ldB x
  | .storeRegs x => RowOf.storeRegs x
  | .loadRegs x => RowOf.loadRegs x
  | .ldVxK x => RowOf.ldVxK x
  | .nop w => RowOf.nop w

theorem matches_row_or_decode_eq_nop (w : Word) :
    (∃ row ∈ opcodeRows, w &&& row.mask = row.pattern) ∨ decode w = .nop w := by
  rcases rowOf_statement (decode w) (decode_wellFormed w) with ⟨k, row, hk, hmatch, -⟩ | ⟨hnop, -⟩
  · rw [encode_decode] at hmatch
    exact .inl ⟨row, List.mem_of_getElem? hk, hmatch⟩
  · rw [encode_decode] at hnop
    exact .inr hnop

/-- Settles O6: a row's instruction is encoded to the word it was read from where the row matches; a word of no row is a
no-op. -/
theorem decodeFollowsMaskAndMatch : Obligations.DecodeFollowsMaskAndMatch := by
  refine fun w => ⟨fun row hrow => (OpcodeRow.isSound_of_mem row hrow).decode_eq_build_iff w, fun hnone => ?_⟩
  refine (matches_row_or_decode_eq_nop w).resolve_left ?_
  rintro ⟨row, hrow, hmatch⟩
  exact hnone row hrow hmatch

/-- A word laid out in memory high byte first decodes as that word (R33). -/
theorem decodeTableWord_eq (nbits n : Nat) : decodeTableWord nbits n = some (decode (tableWord nbits n)) := by
  simp [decodeTableWord, decodeBytes, bytesOfWord]

/-- Settles O5: the decoder evaluated on the ten words. -/
theorem sampleWordsDecode : Obligations.SampleWordsDecode := by
  simp only [Obligations.SampleWordsDecode, decodeTableWord_eq, Option.some.injEq]
  decide

end Sys2Proof

/-! Frames put together (R60): what no part of a change touches, the whole change leaves alone. -/

namespace Sys2Proof

open Machine

theorem Part.same_refl (s : State) : ∀ p : Part, p.same s s
  | .v | .mem | .disp => fun _ => rfl
  | .i | .pc | .sp | .dt | .st | .params => rfl
  | .inputs => ⟨rfl, rfl, rfl⟩

theorem Part.same_trans {s t u : State} : ∀ {p : Part}, p.same s t → p.same t u → p.same s u
  | .v, hst, htu | .mem, hst, htu | .disp, hst, htu => fun a => (htu a).trans (hst a)
  | .i, hst, htu | .pc, hst, htu | .sp, hst, htu | .dt, hst, htu | .st, hst, htu | .params, hst, htu =>
    Eq.trans htu hst
  | .inputs, ⟨hkeys, hrnd, hsteps⟩, ⟨hkeys', hrnd', hsteps'⟩ =>
    ⟨hkeys'.trans hkeys, hrnd'.trans hrnd, hsteps'.trans hsteps⟩

theorem UnchangedBut.refl (ps : List Part) (s : State) : UnchangedBut ps s s := fun p _ => p.same_refl s

/-- What neither of two changes touches, both together leave alone. -/
theorem UnchangedBut.trans {ps qs : List Part} {s t u : State} (hst : UnchangedBut ps s t) (htu : UnchangedBut qs t u) :
    UnchangedBut (ps ++ qs) s u := by
  intro p hp
  obtain ⟨hps, hqs⟩ := not_or.1 (mt List.mem_append.2 hp)
  exact Part.same_trans (hst p hps) (htu p hqs)

/-- Advancing `PC` changes `PC` alone (R62). -/
theorem advancePc_unchangedBut (s : State) : UnchangedBut [.pc] s s.advancePc := by
  intro p hp
  have hsame := p.same_refl s
  cases p with
  | pc => exact absurd List.mem_cons_self hp
  | _ => exact hsame

/-- The end of a step changes the timers and the inputs alone (R65, R66). -/
theorem endStep_unchangedBut (s : State) : UnchangedBut [.dt, .st, .inputs] s (endStep s) := by
  intro p hp
  have hsame := p.same_refl s
  cases p with
  | dt | st | inputs => simp at hp
  | _ => exact hsame

end Sys2Proof

/-! The step: its phases (R60 to R62), its totality (R67), the tick (R65), and the inputs it takes (R66). -/

namespace Sys2Proof.Machine

/-- Settles O10: the two bytes of the word stand at `PC` and `PC + 1`, and a read reduces its address. -/
theorem fetchIsHighByteFirst : Obligations.FetchIsHighByteFirst := by
  intro s
  have hhigh : s.byteAt (s.pc.toNat % 4096) = s.byteAt s.pc.toNat := s.byteAt_mod _
  have hlow : s.byteAt ((s.pc.toNat + 1) % 4096) = s.byteAt (s.pc.toNat + 1) := s.byteAt_mod _
  rw [hhigh, hlow, fetchWord, wordOfBytes_toNat]

/-- Settles O12: that an instruction answers a next state, and so a step does, is part of the contract. -/
theorem everyStepAnswersNext : Obligations.EveryStepAnswersNext := by
  refine ⟨fun i s => ?_, fun s => ?_⟩
  · obtain ⟨t, ht, -⟩ := exec_meetsContract i s
    exact ⟨t, ht⟩
  · obtain ⟨u, hu, -⟩ := step_meetsContract s
    exact ⟨endStep u, hu⟩

/-- Settles O11: the fetched word is the two bytes at `PC`, and it decodes to the instruction. -/
theorem stepRunsDecodedInstruction : Obligations.StepRunsDecodedInstruction := by
  refine ⟨fun s i hdecode _ => ?_, fun u => ⟨rfl, rfl, rfl, rfl, endStep_unchangedBut u⟩⟩
  obtain rfl : decode (fetchWord s) = i := congrArg Prod.fst (Except.ok.inj hdecode)
  rfl

/-- A step from its instruction's execute phase (R60). -/
theorem step_of_decode {s u : State} {i : Instr} (hdecode : decode (fetchWord s) = i)
    (hexec : exec i s.advancePc = .next u) : step s = .next (endStep u) :=
  (step_eq_next_iff ..).2 ⟨u, hdecode ▸ hexec, rfl⟩

/-- The state that a step answers is the end of its instruction's execute phase (R60). -/
theorem eq_endStep_of_step {s t u : State} {i : Instr} (hstep : step s = .next t) (hdecode : decode (fetchWord s) = i)
    (hexec : exec i s.advancePc = .next u) : t = endStep u :=
  Host.Outcome.next.inj (hstep.symm.trans (step_of_decode hdecode hexec))

/-- A timer's tick as a number: one less, and 0 stays 0 (R65). -/
@[simp] theorem tickTimer_toNat (b : TimerByte) : (tickTimer b).toNat = b.toNat - 1 := by
  unfold tickTimer
  split_ifs with hb
  · rw [hb]; rfl
  · exact BitVec.toNat_sub_of_le (Nat.pos_of_ne_zero (BitVec.toNat_ne.1 hb))

/-- Settles O15: a no-op's execute phase is empty, so the step is the advance of `PC` and the end of the step. -/
theorem unmatchedWordDoesNothing : Obligations.UnmatchedWordDoesNothing := by
  refine ⟨fun w s => ⟨s, rfl, UnchangedBut.refl _ s⟩, fun s hw => ?_⟩
  have hstep : step s = .next (endStep s.advancePc) := step_of_decode (decode_eq_nop_iff.2 hw) rfl
  exact ⟨_, hstep, rfl, tickTimer_toNat s.dt, tickTimer_toNat s.st,
    (advancePc_unchangedBut s).trans (endStep_unchangedBut _)⟩

/-! The timers and the inputs in an execute phase: what becomes of them, proved once of every instruction. -/

/-- `DT` after the execute phase (R124). -/
def nextDt (i : Instr) (s : State) : TimerByte :=
  match i with
  | .ldDtVx x => s.getV x
  | _ => s.dt

/-- `ST` after the execute phase (R125). -/
def nextSt (i : Instr) (s : State) : TimerByte :=
  match i with
  | .ldStVx x => s.getV x
  | _ => s.st

/-- The same engine state with other random bytes for the steps to come (R21). -/
def State.withRandomBytes (s : State) (bytes : List Byte) : State := { s with rndInputs := bytes }

/-- What the execute phase of an instruction from `s` to `t` does with the timers (R15) and with the inputs (R66): it keeps
the plan of inputs, and it runs alike with other random bytes unless it reads one. As in `ExecContract`, a construction
names only the clauses that do not hold by definition. -/
structure TimersAndInputs (i : Instr) (s t : State) : Prop where
  dt_eq : t.dt = nextDt i s := by rfl
  st_eq : t.st = nextSt i s := by rfl
  keyInputs_eq : t.keyInputs = s.keyInputs := by rfl
  rndInputs_eq : t.rndInputs = s.rndInputs := by rfl
  exec_withRandomBytes : readsRandom i = false → ∀ bytes,
    exec i (s.withRandomBytes bytes) = .next (t.withRandomBytes bytes) := by intros; rfl

/-- An execute phase that is a skip (R73), decided without the random byte. -/
theorem timersAndInputs_of_skipIf {i : Instr} {s : State} (b : Bool) (hdt : nextDt i s = s.dt) (hst : nextSt i s = s.st)
    (hexec : ∀ bytes, exec i (s.withRandomBytes bytes) = .next (skipIf b (s.withRandomBytes bytes))) :
    TimersAndInputs i s (skipIf b s) := by
  cases b <;> exact { dt_eq := hdt.symm, st_eq := hst.symm, exec_withRandomBytes := fun _ => hexec }

theorem setVs_withRandomBytes (k : Nat) (bs : List Byte) (s : State) (bytes : List Byte) :
    setVs k bs (s.withRandomBytes bytes) = (setVs k bs s).withRandomBytes bytes := by
  induction bs generalizing k s with
  | nil => rfl
  | cons b bs ih => exact ih (k + 1) (s.setV _ b)

/-- FX0A while no key is pressed (R122). -/
theorem exec_ldVxK_of_none (x : Reg) {s : State} (h : firstPressed s = none) :
    exec (.ldVxK x) s = .next s.rewindPc := by
  simp only [exec, execLdVxK, h]

/-- FX0A with a least pressed key (R122). -/
theorem exec_ldVxK_of_some (x : Reg) {s : State} {k : Nat} (h : firstPressed s = some k) :
    exec (.ldVxK x) s = .next (s.setV x (BitVec.ofNat 8 k)) := by
  simp only [exec, execLdVxK, h]

/-- Every instruction answers a next state in which the timers and the inputs are as their contract says. -/
theorem exec_timersAndInputs (i : Instr) (s : State) : ∃ t, exec i s = .next t ∧ TimersAndInputs i s t := by
  cases i with
  | seImm | sneImm | seReg | sneReg | skp | sknp =>
    exact ⟨_, rfl, timersAndInputs_of_skipIf _ rfl rfl fun _ => rfl⟩
  | loadRegs x =>
    refine ⟨_, congrArg Host.Outcome.next (setVs_eq ..), { exec_withRandomBytes := fun _ bytes => ?_ }⟩
    rw [← setVs_eq, ← setVs_withRandomBytes]; rfl
  | ldVxK x =>
    cases hk : firstPressed s with
    | none => exact ⟨_, exec_ldVxK_of_none x hk, { exec_withRandomBytes := fun _ _ => exec_ldVxK_of_none x hk }⟩
    | some k => exact ⟨_, exec_ldVxK_of_some x hk, { exec_withRandomBytes := fun _ _ => exec_ldVxK_of_some x hk }⟩
  | rnd x nn => exact ⟨_, rfl, { exec_withRandomBytes := nofun }⟩
  | _ => exact ⟨_, rfl, {}⟩

/-- What every step does with the timers and the plan of inputs: both timers tick, from the value that the step's own
instruction sets, and the plan moves on by one (R65, R66). -/
theorem step_timersAndInputs (s : State) : ∃ t, step s = .next t ∧
    t.dt = tickTimer (nextDt (decode (fetchWord s)) s) ∧ t.st = tickTimer (nextSt (decode (fetchWord s)) s) ∧
    t.keyInputs = s.keyInputs.tail ∧ t.rndInputs = s.rndInputs.tail := by
  obtain ⟨u, hu, hc⟩ := exec_timersAndInputs (decode (fetchWord s)) s.advancePc
  exact ⟨endStep u, step_of_decode rfl hu, congrArg tickTimer hc.dt_eq, congrArg tickTimer hc.st_eq,
    congrArg List.tail hc.keyInputs_eq, congrArg List.tail hc.rndInputs_eq⟩

/-- Settles O13: the tick from the value that the instruction leaves in each timer; FX07 writes its register before it. -/
theorem timersTickOncePerStep : Obligations.TimersTickOncePerStep := by
  intro s
  obtain ⟨t, ht, hdt, hst, -, -⟩ := step_timersAndInputs s
  refine ⟨t, ht, ?_, ?_, fun x hdecode => ?_⟩
  · rw [hdt, tickTimer_toNat]
    cases decode (fetchWord s) <;> rfl
  · rw [hst, tickTimer_toNat]
    cases decode (fetchWord s) <;> rfl
  · have hend : t = endStep (s.advancePc.setV x s.dt) := eq_endStep_of_step ht hdecode rfl
    simp [hend]

/-- A step that reads no key is the same under other keys, but for the keys to come (R66). -/
theorem step_withKeyInputs {s t : State} (hstep : step s = .next t) (hread : readsKeypad (decode (fetchWord s)) = false)
    (keys : List Keypad) : step { s with keyInputs := keys } = .next { t with keyInputs := keys.tail } := by
  obtain ⟨t', ht', hparams, -, hstep'⟩ :=
    step_inEnv s (q := s.params) (keys := keys) ⟨rfl, rfl⟩ (fun hreads => by simp [hread] at hreads)
  obtain rfl : t' = t := Host.Outcome.next.inj (ht'.symm.trans hstep)
  refine hstep'.trans ?_
  rw [← hparams]; rfl

/-- A step that reads no random byte is the same under other random bytes, but for the bytes to come (R66). -/
theorem step_withRandomBytes {s t : State} (hstep : step s = .next t) (hread : readsRandom (decode (fetchWord s)) = false)
    (bytes : List Byte) : step (s.withRandomBytes bytes) = .next (t.withRandomBytes bytes.tail) := by
  obtain ⟨u, hu, hc⟩ := exec_timersAndInputs (decode (fetchWord s)) s.advancePc
  obtain rfl : t = endStep u := eq_endStep_of_step hstep rfl hu
  exact step_of_decode (s := s.withRandomBytes bytes) rfl (hc.exec_withRandomBytes hread bytes)

/-- Settles O46: a step answers a next state, whose dependence on the keys and on the random bytes the two lemmas above
bound. -/
theorem inputsMatterOnlyToTheirReaders : Obligations.InputsMatterOnlyToTheirReaders := by
  intro s
  obtain ⟨u, hu, -⟩ := step_meetsContract s
  exact ⟨endStep u, hu, step_withKeyInputs hu, step_withRandomBytes hu⟩

/-! A step with its inputs given (R42, R165): what its execute phase reads of them. -/

/-- The state on entry to the execute phase of a step with given inputs. -/
def State.entryWith (s : State) (keys : Keypad) (b : Byte) : State := ((s.setKeys keys).setRandom b).advancePc

section
variable (s : State) (keys : Keypad) (b : Byte)

@[simp] theorem State.entryWith_pc : (s.entryWith keys b).pc = s.pc + 2#16 := rfl
@[simp] theorem State.entryWith_getV (r : Reg) : (s.entryWith keys b).getV r = s.getV r := rfl
@[simp] theorem randomInput_entryWith : randomInput (s.entryWith keys b) = b := rfl

theorem keySlot_entryWith {k : Nat} (hk : k < 16) : keySlot (s.entryWith keys b) k = keys[k]'hk := by
  simp [keySlot, State.entryWith, State.setRandom, State.setKeys, Vector.getD, hk]

theorem pressed_entryWith {k : RegByte} (hk : k.toNat < 16) :
    pressed (s.entryWith keys b) k = decide (keys[k.toNat]'hk ≠ 0#8) := by
  rw [pressed, if_pos hk, keySlot_entryWith s keys b hk]
  exact (decide_not ..).symm

theorem firstPressed_entryWith_eq_some {k : Nat} (hk : k < 16) (hpressed : keys[k]'hk ≠ 0#8)
    (hleast : ∀ j, ∀ hj : j < k, keys[j]'(Nat.lt_trans hj hk) = 0#8) : firstPressed (s.entryWith keys b) = some k := by
  refine (firstPressed_eq_some_iff ..).2 ⟨hk, ?_, fun j hj => ?_⟩
  · rwa [keySlot_entryWith s keys b hk]
  · rw [keySlot_entryWith s keys b (hj.trans hk), hleast j hj]

theorem firstPressed_entryWith_eq_none (hnone : ∀ k, ∀ hk : k < 16, keys[k]'hk = 0#8) :
    firstPressed (s.entryWith keys b) = none :=
  (firstPressed_eq_none_iff _).2 fun k hk => (keySlot_entryWith s keys b hk).trans (hnone k hk)

end

/-- The state that a step with given inputs answers is the end of its instruction's execute phase (R60). -/
theorem eq_endStep_of_stepWith {s t u : State} {keys : Keypad} {b : Byte} {i : Instr}
    (hstep : stepWith keys b s = .next t) (hdecode : decode (fetchWord s) = i)
    (hexec : exec i (s.entryWith keys b) = .next u) : t = endStep u :=
  eq_endStep_of_step (s := (s.setKeys keys).setRandom b) hstep hdecode hexec

/-- `PC` is two past the instruction on entry, so a skip ends two or four past it (R73, D2). -/
theorem pc_eq_of_stepWith_skipIf {s t : State} {keys : Keypad} {b : Byte} {i : Instr} {c : Bool}
    (hstep : stepWith keys b s = .next t) (hdecode : decode (fetchWord s) = i)
    (hexec : exec i (s.entryWith keys b) = .next (skipIf c (s.entryWith keys b))) :
    t.pc = if c then s.pc + 4#16 else s.pc + 2#16 := by
  rw [eq_endStep_of_stepWith hstep hdecode hexec]
  cases c with
  | false => rfl
  | true => exact BitVec.add_assoc s.pc 2#16 2#16

/-- Settles O47: each reader's execute phase from the state that has the given inputs, and then the end of the step. -/
theorem stepTakesTheGivenInputs : Obligations.StepTakesTheGivenInputs := by
  intro keys b s
  obtain ⟨t, ht, -, -, hkeys, hrnd⟩ := step_timersAndInputs ((s.setKeys keys).setRandom b)
  refine ⟨t, ht, fun x nn hdecode => ?_, fun x hdecode hx => ?_, fun x hdecode hx => ?_,
    fun x hdecode k hk hpressed hleast => ?_, fun x hdecode hnone => ?_, hkeys, hrnd⟩
  · simp [eq_endStep_of_stepWith ht hdecode rfl]
  · have hpc := pc_eq_of_stepWith_skipIf ht hdecode rfl
    simpa [pressed_entryWith s keys b hx] using hpc
  · have hpc := pc_eq_of_stepWith_skipIf ht hdecode rfl
    simpa [pressed_entryWith s keys b hx] using hpc
  · have hexec := exec_ldVxK_of_some x (firstPressed_entryWith_eq_some s keys b hk hpressed hleast)
    simp [eq_endStep_of_stepWith ht hdecode hexec]
  · have hexec := exec_ldVxK_of_none x (firstPressed_entryWith_eq_none s keys b hnone)
    simp [eq_endStep_of_stepWith ht hdecode hexec]

end Sys2Proof.Machine

/-! Control flow (spec/41_control_flow.md): what the table of R54 says of a word, the frames of the writes to `PC`, `SP` and
memory, and that a return undoes a call. -/

namespace Sys2Proof

open Machine

/-- A row of the opcode map, counted from 0, is R54's test for the instruction that it builds. -/
theorem encodedBy_of_row (k : Nat) {mask pattern : Word} {build : Word → Instr}
    (hrow : opcodeRows[k]? = some ⟨mask, pattern, build⟩ := by rfl) : EncodedBy mask pattern build := fun w =>
  (OpcodeRow.isSound_of_mem _ (List.mem_of_getElem? hrow)).decode_eq_build_iff w

/-- A frame that leaves out more parts says less. -/
theorem UnchangedBut.mono {ps qs : List Part} {s t : State} (h : UnchangedBut ps s t) (hsub : ps ⊆ qs) :
    UnchangedBut qs s t := fun p hp => h p fun hps => hp (hsub hps)

theorem setPc_unchangedBut (s : State) (w : PcWord) : UnchangedBut [.pc] s (s.setPc w) := by
  intro p hp
  have hsame := p.same_refl s
  cases p with
  | pc => exact absurd List.mem_cons_self hp
  | _ => exact hsame

theorem setSp_unchangedBut (s : State) (w : SpWord) : UnchangedBut [.sp] s (s.setSp w) := by
  intro p hp
  have hsame := p.same_refl s
  cases p with
  | sp => exact absurd List.mem_cons_self hp
  | _ => exact hsame

theorem storeBytes_unchangedBut (s : State) (addr : Nat) (bs : List Byte) :
    UnchangedBut [.mem] s (s.storeBytes addr bs) := by
  intro p hp
  have hsame := p.same_refl s
  cases p with
  | mem => exact absurd List.mem_cons_self hp
  | _ => exact hsame

/-- A store of no more bytes than memory holds puts each at its address and leaves the others (R31). -/
theorem storeBytes_storesBytes (s : State) (addr : Nat) {bs : List Byte} (hbs : bs.length ≤ Config.memSize) :
    StoresBytes addr bs s (s.storeBytes addr bs) :=
  ⟨s.storeBytes_byteAt addr bs hbs, s.storeBytes_byteAt_of_outside addr bs⟩

/-- A skip's frame, with the Boolean that the skip asks (R73). -/
theorem skipIf_skipsIf (b : Bool) (s : State) : SkipsIf (b = true) s (skipIf b s) := by
  cases b with
  | false => exact ⟨nofun, fun _ => rfl, UnchangedBut.refl _ s⟩
  | true => exact ⟨fun _ => rfl, fun h => absurd rfl h, advancePc_unchangedBut s⟩

/-- An instruction that is a skip, with the condition that its Boolean decides (R73 to R76). -/
theorem exec_skipsIf {i : Instr} {s : State} {b : Bool} {c : Prop} (hexec : exec i s = .next (skipIf b s))
    (hc : b = true ↔ c) : ∃ t, exec i s = .next t ∧ SkipsIf c s t :=
  ⟨_, hexec, propext hc ▸ skipIf_skipsIf b s⟩

theorem loByte_eq_ofNat (w : Word) : loByte w = BitVec.ofNat 8 (w.toNat % 256) :=
  BitVec.eq_of_toNat_eq (by simp [loByte])

theorem hiByte_eq_ofNat (w : Word) : hiByte w = BitVec.ofNat 8 (w.toNat / 256) :=
  BitVec.eq_of_toNat_eq (by simp [hiByte, Nat.shiftRight_eq_div_pow])

end Sys2Proof

namespace Sys2Proof.Machine

/-- An address of 16 bits may wrap before it is reduced to memory's 12: both reductions agree (R31, D6). -/
theorem State.byteAt_toNat_add (s : State) (a b : BitVec 16) :
    s.byteAt (a + b).toNat = s.byteAt (a.toNat + b.toNat) := by
  have hmod : (a + b).toNat % Config.memSize = (a.toNat + b.toNat) % Config.memSize := by
    rw [BitVec.toNat_add]
    exact Nat.mod_mod_of_dvd _ (by decide)
  rw [← s.byteAt_mod, hmod, s.byteAt_mod]

theorem returnBytes_length_le (w : PcWord) : (returnBytes w).length ≤ Config.memSize :=
  show 2 ≤ Config.memSize by decide

/-! What a return would read depends on `SP` and memory alone (R70). -/

@[simp] theorem topReturn_setPc (s : State) (w : PcWord) : topReturn (s.setPc w) = topReturn s := rfl
@[simp] theorem topReturn_advancePc (s : State) : topReturn s.advancePc = topReturn s := rfl
@[simp] theorem topReturn_endStep (s : State) : topReturn (endStep s) = topReturn s := rfl

/-- A return reads the address that the last call has pushed, also where the two bytes wrap around memory (R70, R72). -/
@[simp] theorem topReturn_pushReturn (w : PcWord) (s : State) : topReturn (pushReturn w s) = w := by
  have hlow : (pushReturn w s).byteAt s.sp.toNat = loByte w :=
    s.storeBytes_byteAt s.sp.toNat (returnBytes w) (returnBytes_length_le w) 0 _ rfl
  have hhigh : (pushReturn w s).byteAt (s.sp.toNat + 1) = hiByte w :=
    s.storeBytes_byteAt s.sp.toNat (returnBytes w) (returnBytes_length_le w) 1 _ rfl
  have hsp : (pushReturn w s).sp = s.sp + 2#16 := rfl
  have hsp1 : s.sp + 2#16 - 1#16 = s.sp + 1#16 := add_sub_assoc s.sp 2#16 1#16
  have hsp2 : s.sp + 2#16 - 2#16 = s.sp := BitVec.add_sub_cancel ..
  rw [topReturn, hsp, hsp1, hsp2, State.byteAt_toNat_add]
  exact (congrArg₂ wordOfBytes hhigh hlow).trans (wordOfBytes_hi_lo w)

/-- A step whose word is 2NNN pushes the advanced `PC` (R72). -/
theorem step_of_decode_call {s : State} {nnn : Addr} (h : decode (fetchWord s) = .call nnn) :
    step s = .next (endStep ((pushReturn (s.pc + 2#16) s.advancePc).setPc (nnn.setWidth Config.pcBits))) :=
  step_of_decode h rfl

/-- A step whose word is 00EE takes `PC` from the stack (R70). -/
theorem step_of_decode_ret {s : State} (h : decode (fetchWord s) = .ret) :
    step s = .next (endStep ((s.advancePc.setSp (s.sp - 2#16)).setPc (topReturn s))) :=
  step_of_decode h rfl

/-- 1NNN's new `PC` as a number (R71). -/
theorem toNat_setWidth_addr (nnn : Addr) : (nnn.setWidth Config.pcBits).toNat = nnn.toNat :=
  BitVec.toNat_setWidth_of_le (by decide)

theorem exec_jp_frame (nnn : Addr) (s : State) :
    ∃ t, exec (.jp nnn) s = .next t ∧ t.pc.toNat = nnn.toNat ∧ UnchangedBut [.pc] s t :=
  ⟨_, rfl, toNat_setWidth_addr nnn, setPc_unchangedBut _ _⟩

/-- `V[0] + nnn` is below 65536, so the 16-bit sum does not wrap (R77). -/
theorem toNat_jpV0_target (b : RegByte) (nnn : Addr) :
    (b.setWidth Config.pcBits + nnn.setWidth Config.pcBits).toNat = b.toNat + nnn.toNat := by
  have hb : b.toNat < 256 := b.isLt
  have hnnn : nnn.toNat < 4096 := nnn.isLt
  have hwidth : (b.setWidth Config.pcBits).toNat = b.toNat := BitVec.toNat_setWidth_of_le (by decide)
  rw [BitVec.toNat_add, hwidth, toNat_setWidth_addr]
  exact Nat.mod_eq_of_lt (by omega : b.toNat + nnn.toNat < 65536)

/-- A jump to its own address undoes the advance of `PC`, so the step is its end alone (R71). -/
theorem step_jp_self {s : State} {nnn : Addr} (hdecode : decode (fetchWord s) = .jp nnn) (hpc : s.pc.toNat = nnn.toNat) :
    step s = .next (endStep s) := by
  have htarget : nnn.setWidth Config.pcBits = s.pc :=
    BitVec.eq_of_toNat_eq ((toNat_setWidth_addr nnn).trans hpc.symm)
  have hself : s.advancePc.setPc (nnn.setWidth Config.pcBits) = s := by rw [htarget]; rfl
  exact step_of_decode hdecode (congrArg Host.Outcome.next hself)

/-- Settles O21: the call is a store of the advanced `PC`'s two bytes and then the writes of `SP` and `PC`. -/
theorem callPushesReturnAddress : Obligations.CallPushesReturnAddress := by
  refine ⟨encodedBy_of_row 3, fun nnn s => ⟨_, rfl, toNat_setWidth_addr nnn, BitVec.toNat_add .., ?_, ?_⟩⟩
  · rw [← loByte_eq_ofNat, ← hiByte_eq_ofNat]
    exact storeBytes_storesBytes s s.sp.toNat (returnBytes_length_le s.pc)
  · exact (((storeBytes_unchangedBut _ _ _).trans (setSp_unchangedBut _ _)).trans (setPc_unchangedBut _ _)).mono (by decide)

/-- Settles O22: the return writes `SP` and `PC` alone, and the popped bytes are a word high byte first. -/
theorem returnPopsProgramCounter : Obligations.ReturnPopsProgramCounter := by
  refine ⟨encodedBy_of_row 1, fun s => ⟨_, rfl, wordOfBytes_toNat .., rfl, ?_⟩⟩
  exact ((setSp_unchangedBut _ _).trans (setPc_unchangedBut _ _)).mono (by decide)

/-- Settles O23: nothing between the push and the pop writes `SP` or memory, so the return reads what the call pushed. -/
theorem callThenReturnComesBack : Obligations.CallThenReturnComesBack := by
  intro s nnn hcall
  refine ⟨_, step_of_decode_call hcall, fun hret => ⟨_, step_of_decode_ret hret, ?_, ?_⟩⟩
  · simp
  · exact BitVec.add_sub_cancel s.sp 2#16

/-- Settles O18: both jumps are one write of `PC`. -/
theorem jumpsSetProgramCounter : Obligations.JumpsSetProgramCounter := by
  refine ⟨encodedBy_of_row 2, encodedBy_of_row 20, fun nnn s => ⟨exec_jp_frame nnn s, ?_⟩⟩
  exact ⟨_, rfl, toNat_jpV0_target .., setPc_unchangedBut _ _⟩

/-- Settles O19: both are skips, by the Boolean that compares the register with the immediate. -/
theorem skipsOnImmediate : Obligations.SkipsOnImmediate :=
  ⟨encodedBy_of_row 4, encodedBy_of_row 5, fun _ _ _ => ⟨exec_skipsIf rfl beq_iff_eq, exec_skipsIf rfl bne_iff_ne⟩⟩

/-- Settles O20: both are skips, by the Boolean that compares the two registers. -/
theorem skipsOnRegisterComparison : Obligations.SkipsOnRegisterComparison :=
  ⟨encodedBy_of_row 6, encodedBy_of_row 7, fun _ _ _ => ⟨exec_skipsIf rfl beq_iff_eq, exec_skipsIf rfl bne_iff_ne⟩⟩

/-- Settles O57: the jump is one write of `PC`; where it writes the jump's own address, only the end of the step is left. -/
theorem jumpSetsAddress : Obligations.JumpSetsAddress :=
  ⟨encodedBy_of_row 2, exec_jp_frame, fun _ s hdecode hpc =>
    ⟨_, step_jp_self hdecode hpc, rfl, tickTimer_toNat s.dt, tickTimer_toNat s.st, endStep_unchangedBut s⟩⟩

end Sys2Proof.Machine

/-! Loads, arithmetic, logic, shifts, random (spec/42_alu.md): the frames of a register write and of a write of flag and
result, and the results and flags as numbers. -/

namespace Sys2Proof.Machine

variable (a b : Byte)

/-! The results as numbers. -/

theorem byte_add_eq_ofNat : a + b = BitVec.ofNat 8 ((a.toNat + b.toNat) % 256) :=
  BitVec.eq_of_toNat_eq (by simp)

theorem byte_sub_eq_ofNat :
    a - b = BitVec.ofNat 8 (if b.toNat ≤ a.toNat then a.toNat - b.toNat else a.toNat + 256 - b.toNat) := by
  refine BitVec.eq_of_toNat_eq ?_
  have ha : a.toNat < 256 := a.isLt
  have hb : b.toNat < 256 := b.isLt
  rw [BitVec.toNat_sub, BitVec.toNat_ofNat]
  split_ifs <;> omega

theorem byte_ushiftRight_one_eq_ofNat : a >>> 1 = BitVec.ofNat 8 (a.toNat / 2) := by
  refine BitVec.eq_of_toNat_eq ?_
  have ha : a.toNat < 256 := a.isLt
  rw [BitVec.toNat_ushiftRight, Nat.shiftRight_eq_div_pow, BitVec.toNat_ofNat]
  omega

theorem byte_shiftLeft_one_eq_ofNat : a <<< 1 = BitVec.ofNat 8 (2 * a.toNat % 256) := by
  refine BitVec.eq_of_toNat_eq ?_
  rw [BitVec.toNat_shiftLeft, Nat.shiftLeft_eq, BitVec.toNat_ofNat]
  omega

/-! The flags as numbers (R92). -/

theorem boolByte_decide (p : Prop) [Decidable p] : boolByte (decide p) = if p then 1#8 else 0#8 := by
  by_cases hp : p <;> simp [boolByte, hp]

theorem boolByte_eq_ofNat (c : Bool) : boolByte c = BitVec.ofNat 8 c.toNat := by cases c <;> rfl

/-- A bit of a byte as a flag is a quotient's remainder. -/
theorem boolByte_getLsbD (k : Nat) : boolByte (a.getLsbD k) = BitVec.ofNat 8 (a.toNat / 2 ^ k % 2) := by
  rw [boolByte_eq_ofNat, BitVec.getLsbD, Nat.toNat_testBit]

theorem carryFlag_eq : carryFlag a b = if a.toNat + b.toNat > 255 then 1#8 else 0#8 := boolByte_decide _

theorem greaterFlag_eq : greaterFlag a b = if a.toNat > b.toNat then 1#8 else 0#8 := boolByte_decide _

theorem lessFlag_eq : lessFlag a b = if a.toNat < b.toNat then 1#8 else 0#8 := boolByte_decide _

theorem lowBitFlag_eq_ofNat : lowBitFlag a = BitVec.ofNat 8 (a.toNat % 2) := by
  rw [lowBitFlag, boolByte_getLsbD, Nat.pow_zero, Nat.div_one]

/-- The top bit of a byte is its quotient by 128, which is at most 1. -/
theorem highBitFlag_eq_ofNat : highBitFlag a = BitVec.ofNat 8 (a.toNat / 128) := by
  have hquot : a.toNat / 2 ^ 7 % 2 = a.toNat / 128 := by
    have ha : a.toNat < 256 := a.isLt
    omega
  exact (boolByte_getLsbD a 7).trans (by rw [hquot])

end Sys2Proof.Machine

namespace Sys2Proof

open Machine

theorem setV_unchangedBut (s : State) (x : Reg) (b : RegByte) : UnchangedBut [.v] s (s.setV x b) := by
  intro p hp
  have hsame := p.same_refl s
  cases p with
  | v => exact absurd List.mem_cons_self hp
  | _ => exact hsame

theorem setV_writesReg (s : State) (x : Reg) (b : RegByte) : WritesReg x b s (s.setV x b) := by
  refine ⟨?_, fun r hr => ?_, setV_unchangedBut s x b⟩
  · rw [State.getV_setV, if_pos rfl]
  · rw [State.getV_setV, if_neg hr]

/-- The result is written last, so it stays where its register is `VF` (R68, D11). -/
theorem writeFlagThenResult_writesFlagAndReg (s : State) (flag : RegByte) (x : Reg) (result : RegByte) :
    WritesFlagAndReg x flag result s (writeFlagThenResult s flag x result) := by
  refine ⟨?_, fun hx => ?_, fun r hr hflag => ?_, ?_⟩
  · exact (writeFlagThenResult_getV ..).trans (if_pos rfl)
  · exact (writeFlagThenResult_getV ..).trans ((if_neg hx.symm).trans (if_pos rfl))
  · exact (writeFlagThenResult_getV ..).trans ((if_neg hr).trans (if_neg hflag))
  · exact ((setV_unchangedBut _ _ _).trans (setV_unchangedBut _ _ _)).mono (by decide)

/-- An instruction that is one write of a register, with the byte as its rule gives it. -/
theorem exec_writesReg {i : Instr} {s : State} {x : Reg} {b c : RegByte} (hexec : exec i s = .next (s.setV x b))
    (hb : b = c) : ∃ t, exec i s = .next t ∧ WritesReg x c s t :=
  ⟨_, hexec, hb ▸ setV_writesReg s x b⟩

/-- An instruction that writes a flag and then its result, with the bytes as its rule gives them (R68). -/
theorem exec_writesFlagAndReg {i : Instr} {s : State} {x : Reg} {flag flag' result result' : RegByte}
    (hexec : exec i s = .next (writeFlagThenResult s flag x result)) (hflag : flag = flag') (hresult : result = result') :
    ∃ t, exec i s = .next t ∧ WritesFlagAndReg x flag' result' s t :=
  ⟨_, hexec, hflag ▸ hresult ▸ writeFlagThenResult_writesFlagAndReg s flag x result⟩

/-- Settles O26: each is a write of flag and result, computed from the values on entry. -/
theorem addAndSubtractWithFlag : Obligations.AddAndSubtractWithFlag := by
  intro x y s
  exact ⟨exec_writesFlagAndReg rfl (carryFlag_eq ..) (byte_add_eq_ofNat ..),
    exec_writesFlagAndReg rfl (greaterFlag_eq ..) (byte_sub_eq_ofNat ..),
    exec_writesFlagAndReg rfl (lessFlag_eq ..) (byte_sub_eq_ofNat ..)⟩

/-- Settles O27: both are a write of flag and result, computed from `V[x]` on entry alone. -/
theorem shiftsByOne : Obligations.ShiftsByOne := by
  intro x y s
  exact ⟨exec_writesFlagAndReg rfl (lowBitFlag_eq_ofNat _) (byte_ushiftRight_one_eq_ofNat _),
    exec_writesFlagAndReg rfl (highBitFlag_eq_ofNat _) (byte_shiftLeft_one_eq_ofNat _)⟩

/-- Settles O24: both are one write of a register. -/
theorem loadImmediateAndCopy : Obligations.LoadImmediateAndCopy :=
  ⟨encodedBy_of_row 8, encodedBy_of_row 10, fun _ _ _ _ => ⟨exec_writesReg rfl rfl, exec_writesReg rfl rfl⟩⟩

/-- Settles O25: each is one write of `V[x]`, so `VF` is written only where it is `V[x]`. -/
theorem addImmediateAndLogic : Obligations.AddImmediateAndLogic := fun _ _ _ _ =>
  ⟨exec_writesReg rfl (byte_add_eq_ofNat ..), exec_writesReg rfl rfl, exec_writesReg rfl rfl, exec_writesReg rfl rfl⟩

theorem randomInput_of_cons {s : State} {b : Byte} {bs : List Byte} (h : s.rndInputs = b :: bs) : randomInput s = b := by
  rw [randomInput, h]

/-- Settles O28: the byte is the step's random input, which is the given one where the state holds one. -/
theorem randomByteIsMasked : Obligations.RandomByteIsMasked := fun _ _ s =>
  ⟨randomInput s, fun _ _ => randomInput_of_cons, exec_writesReg rfl rfl⟩

end Sys2Proof

/-! Index register and memory transfer (spec/43_index_memory.md): the frames of a write of `I` and of a load of registers,
the new values of `I` as numbers, and what a load of registers leaves in them. -/

namespace Sys2Proof.Machine

/-- `FONT_BASE + V[x] · 5` is below 65536, so it does not wrap (R103). -/
theorem glyphAddress_toNat (p : Params) (b : RegByte) : (glyphAddress p b).toNat = p.fontBase.val + b.toNat * 5 := by
  have hfont := p.fontBase_add_le
  have hb : b.toNat < 256 := b.isLt
  exact (BitVec.toNat_ofNat ..).trans (Nat.mod_eq_of_lt (by omega : p.fontBase.val + b.toNat * 5 < 65536))

/-- FX1E's new `I` as a number (R102). -/
theorem toNat_index_add (w : IndexWord) (b : RegByte) :
    (w + b.setWidth Config.iBits).toNat = (w.toNat + b.toNat) % 65536 := by
  have hwidth : (b.setWidth Config.iBits).toNat = b.toNat := BitVec.toNat_setWidth_of_le (by decide)
  rw [BitVec.toNat_add, hwidth]
  rfl

/-- A register that FX65 lists holds the byte at its own distance from `I` (R106). -/
theorem setVs_loadBytes_getV_of_le (s : State) {x r : Reg} (h : r.toNat ≤ x.toNat) :
    (setVs 0 (s.loadBytes s.i.toNat (x.toNat + 1)) s).getV r = s.byteAt (s.i.toNat + r.toNat) := by
  have hlen : 0 + (s.loadBytes s.i.toNat (x.toNat + 1)).length ≤ 16 := by
    rw [State.loadBytes_length, Nat.zero_add]
    exact x.isLt
  rw [setVs_getV 0 _ s hlen, if_pos r.toNat.zero_le, Nat.sub_zero, State.loadBytes_getElem?,
    if_pos (Nat.lt_succ_of_le h), Option.getD_some]

end Sys2Proof.Machine

namespace Sys2Proof

open Machine

theorem setI_unchangedBut (s : State) (w : IndexWord) : UnchangedBut [.i] s (s.setI w) := by
  intro p hp
  have hsame := p.same_refl s
  cases p with
  | i => exact absurd List.mem_cons_self hp
  | _ => exact hsame

theorem setVs_unchangedBut (k : Nat) (bs : List Byte) (s : State) : UnchangedBut [.v] s (setVs k bs s) := by
  induction bs generalizing k s with
  | nil => exact UnchangedBut.refl _ s
  | cons b bs ih => exact ((setV_unchangedBut s _ b).trans (ih (k + 1) _)).mono (by decide)

/-- Settles O31: the digits are one store of three bytes. -/
theorem decimalDigitsStored : Obligations.DecimalDigitsStored := fun x s =>
  ⟨_, rfl, storeBytes_storesBytes s s.i.toNat (bs := decimalDigits (s.getV x)) (show 3 ≤ Config.memSize by decide),
    storeBytes_unchangedBut _ _ _⟩

/-- Settles O32: the registers are one store, with register `k` at place `k` of the list. -/
theorem registersStored : Obligations.RegistersStored := by
  refine fun x s => ⟨_, rfl, fun r hr => ?_, fun a ha => ?_, storeBytes_unchangedBut _ _ _⟩
  · rw [State.storeBytes_regsUpTo_byteAt s _ hr, BitVec.ofNat_toNat, BitVec.setWidth_eq]
  · refine State.storeBytes_byteAt_of_outside s _ _ a fun k hk => ha k ?_
    rw [regsUpTo_length] at hk
    exact Nat.le_of_lt_succ hk

/-- Settles O33: the load writes consecutive registers from `V[0]` on, and nothing but registers. -/
theorem registersLoaded : Obligations.RegistersLoaded := fun _ s =>
  ⟨_, rfl, fun _ => setVs_loadBytes_getV_of_le s, fun _ => setVs_loadBytes_getV_of_lt s, setVs_unchangedBut _ _ _⟩

/-- Settles O34: the store leaves `I`, so the load reads the bytes that the store has written. -/
theorem storeThenLoadRoundTrip : Obligations.StoreThenLoadRoundTrip := by
  intro x s
  obtain ⟨t, hstore, hstored, -, hframe⟩ := registersStored x s
  have hi : t.i = s.i := hframe .i (by decide)
  refine ⟨t, hstore, fun u hu hmem => ?_⟩
  obtain ⟨w, hload, hloaded, -, -⟩ := registersLoaded x u
  refine ⟨w, hload, fun r hr => ?_⟩
  rw [hloaded r hr, hmem, hu, hi, hstored r hr]

/-- Settles O29: the instruction is one write of `I`. -/
theorem loadIndex : Obligations.LoadIndex :=
  ⟨encodedBy_of_row 19, fun nnn _ => ⟨_, rfl, toNat_setWidth_addr nnn, setI_unchangedBut _ _⟩⟩

/-- Settles O30: both are one write of `I`. -/
theorem addToIndexAndGlyphAddress : Obligations.AddToIndexAndGlyphAddress := fun _ _ =>
  ⟨⟨_, rfl, toNat_index_add .., setI_unchangedBut _ _⟩, ⟨_, rfl, glyphAddress_toNat .., setI_unchangedBut _ _⟩⟩

end Sys2Proof

/-! Display (spec/44_display.md): the cells under a sprite's set bits, what a draw makes of them and of the flag, and that a
second draw undoes the first. -/

namespace Sys2Proof

open Machine

theorem setDisp_unchangedBut (s : State) (d : Display) : UnchangedBut [.disp] s (s.setDisp d) := by
  intro p hp
  have hsame := p.same_refl s
  cases p with
  | disp => exact absurd List.mem_cons_self hp
  | _ => exact hsame

/-- Settles O36: the instruction leaves no cell lit and writes nothing but the display. -/
theorem clearMakesEveryCellZero : Obligations.ClearMakesEveryCellZero :=
  ⟨encodedBy_of_row 0, fun s => ⟨_, rfl, fun _ => rfl, setDisp_unchangedBut s []⟩⟩

/-- A cell that holds 0 or `ON` is its own conjunction with `ON` (R18, R112). -/
@[simp] theorem cell_and_on (s : State) (c : Nat) : s.cell c &&& Config.on = s.cell c := by
  obtain hzero | hon := cellsHoldZeroOrOn.2 s c
  · rw [hzero, BitVec.zero_and]
  · rw [hon, BitVec.and_self]

theorem cell_ne_zero_iff_lit (s : State) (c : Nat) : s.cell c ≠ 0#16 ↔ Display.lit s.disp c = true := by
  cases h : Display.lit s.disp c <;> simp [State.cell, h, on_ne_zero]

section
variable {x y : Reg} {n : Nibble} {s : State} {c : Nat}

/-- The model's list of a sprite's cells holds those that the sprite covers (R111, R112). -/
theorem mem_drawnCells_iff : c ∈ drawnCells x y n s ↔ SpriteCovers x y n s c := by
  simp only [drawnCells, mem_spriteCells, State.loadBytes_getElem?, SpriteCovers, Nat.zero_add, cellIndex,
    Option.ite_none_right_eq_some, Option.some.injEq]
  constructor
  · rintro ⟨row, _, ⟨hrow, rfl⟩, hcol⟩
    exact ⟨row, hrow, hcol⟩
  · rintro ⟨row, hrow, hcol⟩
    exact ⟨row, _, ⟨hrow, rfl⟩, hcol⟩

/-- A sprite of at most 15 rows touches no cell twice (R111). -/
theorem drawnCells_nodup (x y : Reg) (n : Nibble) (s : State) : (drawnCells x y n s).Nodup := by
  have hn : n.toNat < 16 := n.isLt
  refine spriteCells_nodup _ _ _ _ ?_
  rw [State.loadBytes_length]
  omega

/-- A draw XORs `ON` into each cell of its list, as no cell is in it twice (R112). -/
theorem cell_setDisp_drawCells (s : State) {cells : List Nat} (h : cells.Nodup) (c : Nat) :
    (s.setDisp (drawCells s.disp cells).1).cell c = if c ∈ cells then s.cell c ^^^ Config.on else s.cell c := by
  rw [State.setDisp_cell, drawCells, lit_foldl_drawCell cells h, State.cell]
  by_cases hc : c ∈ cells
  · cases Display.lit s.disp c <;> simp [hc]
  · simp [hc]

/-- A draw reports a collision where a cell that the sprite covers held a bit of `ON` (R112). -/
theorem collision_drawnCells_iff : (drawCells s.disp (drawnCells x y n s)).2 = true ↔
    ∃ c, SpriteCovers x y n s c ∧ s.cell c &&& Config.on ≠ 0#16 := by
  rw [drawCells, collision_foldl_drawCell _ (drawnCells_nodup x y n s), Bool.false_or, List.any_eq_true]
  simp only [mem_drawnCells_iff, cell_and_on, cell_ne_zero_iff_lit]

/-- The cells that a sprite covers depend on the coordinates, `I` and the sprite's bytes alone (R111). -/
theorem spriteCovers_congr {u : State} (hx : u.getV x = s.getV x) (hy : u.getV y = s.getV y) (hi : u.i = s.i)
    (hbytes : ∀ row, row < n.toNat → u.byteAt (s.i.toNat + row) = s.byteAt (s.i.toNat + row)) :
    SpriteCovers x y n u c ↔ SpriteCovers x y n s c := by
  simp only [SpriteCovers, hx, hy, hi]
  refine exists_congr fun row => and_congr_right fun hrow => ?_
  rw [hbytes row hrow]

end

/-- Settles O37: the draw toggles the listed cells, which are the covered ones, and its flag is the collision. -/
theorem drawXorsSpriteCells : Obligations.DrawXorsSpriteCells := by
  intro x y n s
  have hcell := cell_setDisp_drawCells (s.setV flagReg (boolByte (drawCells s.disp (drawnCells x y n s)).2))
    (drawnCells_nodup x y n s)
  refine ⟨_, rfl, fun c => ⟨fun h => ?_, fun h => ?_⟩, fun h => ?_, fun h => ?_, fun r hr => ?_, ?_⟩
  · exact (hcell c).trans (if_pos (mem_drawnCells_iff.2 h))
  · exact (hcell c).trans (if_neg (mt mem_drawnCells_iff.1 h))
  · exact (State.getV_setV ..).trans (congrArg boolByte (collision_drawnCells_iff.2 h))
  · have hnone : ¬∃ c, SpriteCovers x y n s c ∧ s.cell c &&& Config.on ≠ 0#16 := fun ⟨c, hc, hne⟩ => hne (h c hc)
    have hcollision := Bool.eq_false_iff.2 (mt collision_drawnCells_iff.1 hnone)
    exact (State.getV_setV ..).trans (congrArg boolByte hcollision)
  · exact (State.getV_setV ..).trans (if_neg hr)
  · exact (setV_unchangedBut _ _ _).trans (setDisp_unchangedBut _ _)

/-- A cell that a draw has XORed with `ON` and left lit held 0 before (R113). -/
theorem cell_eq_zero_of_xor_on {s t : State} {c : Nat} (hxor : t.cell c = s.cell c ^^^ Config.on)
    (hon : t.cell c = Config.on) : s.cell c = 0#16 :=
  (BitVec.xor_left_inj Config.on).1 (hxor.symm.trans (hon.trans BitVec.zero_xor.symm))

/-- Settles O38: both draws cover the same cells, XOR with `ON` twice is the identity, and a covered cell is lit at the
second draw exactly when the first has lit it. -/
theorem doubleDrawRestoresDisplay : Obligations.DoubleDrawRestoresDisplay := by
  intro x y n s
  obtain ⟨t, ht, htcell, -, -, -, -⟩ := drawXorsSpriteCells x y n s
  refine ⟨t, ht, fun u hx hy hi hbytes hcells => ?_⟩
  obtain ⟨w, hw, hwcell, hflagOne, hflagZero, -, -⟩ := drawXorsSpriteCells x y n u
  simp only [spriteCovers_congr hx hy hi hbytes, cell_and_on, hcells] at hwcell hflagOne hflagZero
  refine ⟨w, hw, fun c => ?_, fun hone => ?_, fun ⟨c, hzero, hon⟩ => ?_⟩
  · by_cases hc : SpriteCovers x y n s c
    · rw [(hwcell c).1 hc, (htcell c).1 hc, BitVec.xor_assoc, BitVec.xor_self, BitVec.xor_zero]
    · rw [(hwcell c).2 hc, (htcell c).2 hc]
  · by_contra hnone
    have hdark : ∀ c, SpriteCovers x y n s c → t.cell c = 0#16 := fun c hc =>
      (cellsHoldZeroOrOn.2 t c).resolve_right fun hon => hnone ⟨c, cell_eq_zero_of_xor_on ((htcell c).1 hc) hon, hon⟩
    exact absurd (hone.symm.trans (hflagZero hdark)) (by decide)
  · have hc : SpriteCovers x y n s c := by
      by_contra hout
      exact on_ne_zero (hon.symm.trans (((htcell c).2 hout).trans hzero))
    exact hflagOne ⟨c, hc, hon ▸ on_ne_zero⟩

end Sys2Proof

/-! Keypad and timers (spec/45_keypad_timers.md): the slots that the state gives, the frames of a timer write, and that FX0A's
rewind undoes the advance of `PC`. -/

namespace Sys2Proof

open Machine

/-- A slot of the step's keys, where the state gives them (R20). -/
theorem keySlot_of_cons {s : State} {keys : Keypad} {rest : List Keypad} (hkeys : s.keyInputs = keys :: rest) {k : Nat}
    (hk : k < 16) : keySlot s k = keys[k]'hk := by
  simp [keySlot, hkeys, Vector.getD, hk]

theorem pressed_of_lt (s : State) {k : RegByte} (hk : k.toNat < 16) :
    pressed s k = decide (keySlot s k.toNat ≠ 0#8) :=
  (if_pos hk).trans (decide_not ..).symm

theorem setDt_unchangedBut (s : State) (b : TimerByte) : UnchangedBut [.dt] s (s.setDt b) := by
  intro p hp
  have hsame := p.same_refl s
  cases p with
  | dt => exact absurd List.mem_cons_self hp
  | _ => exact hsame

theorem setSt_unchangedBut (s : State) (b : TimerByte) : UnchangedBut [.st] s (s.setSt b) := by
  intro p hp
  have hsame := p.same_refl s
  cases p with
  | st => exact absurd List.mem_cons_self hp
  | _ => exact hsame

/-- FX0A's rewind takes `PC` back to the instruction, also where `PC + 2` has wrapped (R122, D2). -/
@[simp] theorem rewindPc_advancePc (s : State) : s.advancePc.rewindPc = s :=
  congrArg s.setPc (BitVec.add_sub_cancel s.pc pcIlen)

/-- A step of FX0A with no key pressed is the end of the step alone (R122). -/
theorem step_ldVxK_of_none {s : State} {x : Reg} (hdecode : decode (fetchWord s) = .ldVxK x) (h : firstPressed s = none) :
    step s = .next (endStep s) := by
  have hnone : firstPressed s.advancePc = none := h
  have hexec := exec_ldVxK_of_none x hnone
  rw [rewindPc_advancePc] at hexec
  exact step_of_decode hdecode hexec

/-- Settles O39: both are skips, by the Boolean `Pressed(V[x])` and by its negation. -/
theorem keySkipsAskPressed : Obligations.KeySkipsAskPressed := by
  intro x s
  refine ⟨pressed s (s.getV x), fun keys rest hkeys hx => ?_, exec_skipsIf rfl Iff.rfl,
    exec_skipsIf rfl (iff_of_eq (Bool.not_eq_true' _))⟩
  rw [pressed_of_lt s hx, keySlot_of_cons hkeys hx]

/-- Settles O40: by what the scan for the least pressed key finds, the instruction is one write of `V[x]` or of `PC`. -/
theorem keyWaitTakesLeastKeyOrRewinds : Obligations.KeyWaitTakesLeastKeyOrRewinds := by
  refine ⟨encodedBy_of_row 33, fun x s => ⟨fun _ _ hkeys _ hk => keySlot_of_cons hkeys hk, ?_⟩⟩
  cases hfirst : firstPressed s with
  | some k =>
    obtain ⟨hk, hpressed, hleast⟩ := (firstPressed_eq_some_iff s k).1 hfirst
    exact .inl ⟨k, hk, hpressed, hleast, exec_writesReg (exec_ldVxK_of_some x hfirst) rfl⟩
  | none =>
    exact .inr ⟨(firstPressed_eq_none_iff s).1 hfirst, s.rewindPc, exec_ldVxK_of_none x hfirst, rfl,
      setPc_unchangedBut s _⟩

/-- Settles O41: such a step is its end alone, which leaves `PC` and memory, and so the fetched word. -/
theorem keyWaitStaysWhileNoKey : Obligations.KeyWaitStaysWhileNoKey := by
  intro s x hdecode hreleased
  have hstep := step_ldVxK_of_none hdecode ((firstPressed_eq_none_iff s).2 hreleased)
  exact ⟨endStep s, hstep, rfl, tickTimer_toNat s.dt, endStep_unchangedBut s⟩

/-- Settles O42: each is one write, of a register or of a timer. -/
theorem timerReadAndWrites : Obligations.TimerReadAndWrites := fun x s =>
  ⟨exec_writesReg rfl rfl, ⟨_, rfl, rfl, setDt_unchangedBut s (s.getV x)⟩,
    ⟨_, rfl, rfl, setSt_unchangedBut s (s.getV x)⟩⟩

end Sys2Proof

/-! The host between two steps (spec/60_exceptions.md section 9): the keys it holds down are the keys the next step finds
pressed. -/

namespace Sys2Proof

open Machine

/-- A slot of the host's vector holds `KEY_DOWN` when its key is held down, else 0 (R137). -/
theorem hostKeys_getElem (p : Params) (down : List Nat) {k : Nat} (hk : k < 16) :
    (hostKeys p down)[k]'hk = if k ∈ down then p.keyDown.val else 0#8 := by
  simp [hostKeys]

/-- The vector that the host leaves is the one whose slots the next step reads (R42, R20). -/
theorem keySlot_setKeys (s : State) (keys : Keypad) (k : Nat) : keySlot (s.setKeys keys) k = keys.getD k 0#8 := rfl

/-- A key is pressed where its slot is not 0, and the host leaves 0 only in the slots of the keys it does not hold down,
for `KEY_DOWN` is not 0 (R20, R137, D8). -/
theorem pressed_setKeys_hostKeys_iff (p : Params) (down : List Nat) (s : State) {k : Byte} (hk : k.toNat < 16) :
    pressed (s.setKeys (hostKeys p down)) k = true ↔ k.toNat ∈ down := by
  have hreleased : (hostKeys p down).getD k.toNat 0#8 = 0#8 ↔ k.toNat ∉ down := hostKeys_getD_eq_zero_iff p down hk
  rw [pressed_of_lt _ hk, keySlot_setKeys, decide_eq_true_iff, Ne, hreleased, not_not]

/-- Settles O55: a slot is `KEY_DOWN` or 0 by the list, and `Pressed` tells the two apart. -/
theorem hostKeysArePressed : Obligations.HostKeysArePressed := fun p down s =>
  ⟨fun _ hk => hostKeys_getElem p down hk, fun _ hk => pressed_setKeys_hostKeys_iff p down s hk⟩

end Sys2Proof

/-! The host's launch and its loop (spec/70_reset_and_hazards.md R150 to R155): what a launch answers, where it puts the
program, and how many of the engine's steps the loop takes. -/

namespace Sys2Proof.Machine

section
variable {p : Params} {program : List Byte}

/-- The two regions share an address: the program is not empty, and each begins before the other ends (R152). -/
theorem overlapsFont_iff (p : Params) (len : Nat) : overlapsFont p len = true ↔
    0 < len ∧ p.progBase.val < p.fontBase.val + 80 ∧ p.fontBase.val < p.progBase.val + len :=
  decide_eq_true_iff

/-- A program longer than the memory from `PROG_BASE` on is refused (R152, D19). -/
theorem launchWith_of_tooLong (hlen : 4096 - p.progBase.val < program.length) :
    launchWith p program = .refused .programTooLong :=
  if_pos hlen

/-- A program that meets R152's preconditions is loaded into the reset state (R150, R155). -/
theorem launchWith_of_fits (hlen : program.length ≤ 4096 - p.progBase.val) (hfont : ¬ overlapsFont p program.length = true) :
    launchWith p program = .next (loadProgram program (State.resetWith p)) :=
  (if_neg hlen.not_gt).trans (if_neg hfont)

/-- The font's refusal is given to the programs that fit in memory and meet the font, and to no others (R152, D19). -/
theorem launchWith_eq_programOverlapsFont_iff : launchWith p program = .refused .programOverlapsFont ↔
    program.length ≤ 4096 - p.progBase.val ∧ overlapsFont p program.length = true := by
  rcases lt_or_ge (4096 - p.progBase.val) program.length with hlong | hlen
  · simp [launchWith_of_tooLong hlong, hlong]
  · by_cases hfont : overlapsFont p program.length = true
    · exact iff_of_true ((if_neg hlen.not_gt).trans (if_pos hfont)) ⟨hlen, hfont⟩
    · simp [launchWith_of_fits hlen hfont, hfont]

/-- Byte `k` of a loaded program is read at `PROG_BASE + k` (R152). -/
theorem loadProgram_byteAt (s : State) (hlen : program.length ≤ 4096 - s.params.progBase.val) {k : Nat} {b : Byte}
    (hb : program[k]? = some b) : (loadProgram program s).byteAt (s.params.progBase.val + k) = b :=
  s.storeBytes_byteAt _ program (hlen.trans (Nat.sub_le ..)) k b hb

/-- A program that fits in memory does not wrap, so loading it leaves every byte outside its region (R152). -/
theorem loadProgram_byteAt_of_outside (s : State) (hlen : program.length ≤ 4096 - s.params.progBase.val) {a : Nat}
    (ha : a < 4096) (hout : a < s.params.progBase.val ∨ s.params.progBase.val + program.length ≤ a) :
    (loadProgram program s).byteAt a = s.byteAt a := by
  refine s.storeBytes_byteAt_of_outside _ program a fun j hj => ?_
  change a % 4096 ≠ (s.params.progBase.val + j) % 4096
  rw [Nat.mod_eq_of_lt ha, Nat.mod_eq_of_lt (by omega)]
  omega

/-- Loading writes memory by `MemWrite` alone, which keeps its canonical form. -/
theorem loadProgram_inv {s : State} (h : Inv s) : Inv (loadProgram program s) := by
  obtain ⟨hmem, hdisp⟩ := h
  exact ⟨memWrite_wf hmem _ program, hdisp⟩

end

/-- With the suggested parameters the font ends before the program begins (D3, D4). -/
theorem not_overlapsFont_suggested (len : Nat) : ¬ overlapsFont Params.suggested len = true := fun h =>
  absurd ((overlapsFont_iff _ _).1 h).2.1 (by decide)

/-- The launch's preconditions as the statement gives them keep the program apart from the font (R152). -/
theorem not_overlapsFont_of_apart {p : Params} {program : List Byte}
    (hapart : program = [] ∨ p.fontBase.val + 80 ≤ p.progBase.val ∨ p.progBase.val + program.length ≤ p.fontBase.val) :
    ¬ overlapsFont p program.length = true := by
  rw [overlapsFont_iff]
  rcases hapart with rfl | hafter | hbefore
  · exact fun h => absurd h.1 (Nat.lt_irrefl 0)
  · omega
  · omega

/-- Settles O3: the launch is a load into the reset state, and the font's region lies outside the program's, so that the
font and the zeros are those of the reset state. -/
theorem launchPlacesProgram : Obligations.LaunchPlacesProgram := by
  refine ⟨fun p program hlen hapart => ?_, fun _ => rfl⟩
  obtain ⟨hpc, hsp, -⟩ := resetRegistersAndDisplay.1 p
  obtain ⟨hfont, hzero⟩ := resetMemoryIsFontAndZeros p
  have hfont_le := p.fontBase_add_le
  refine ⟨_, launchWith_of_fits hlen (not_overlapsFont_of_apart hapart), hpc, hsp, rfl,
    fun k b hb => loadProgram_byteAt _ hlen hb, fun k hk => ?_, fun a ha haFont haProg => ?_,
    loadProgram_inv (invariantAtReset.2 p)⟩
  · refine (loadProgram_byteAt_of_outside _ hlen (by omega) ?_).trans (hfont k hk)
    change p.fontBase.val + k < p.progBase.val ∨ p.progBase.val + program.length ≤ p.fontBase.val + k
    rcases hapart with rfl | hafter | hbefore
    · exact lt_or_ge _ _
    · omega
    · omega
  · exact (loadProgram_byteAt_of_outside _ hlen ha haProg).trans (hzero a ha haFont)

/-- The loop stops where the run has ended (R154). -/
theorem hostRun_succ_of_ended {len : Nat} {s : State} (hend : s.params.progBase.val + len < s.pc.toNat) (fuel : Nat) :
    hostRun len (fuel + 1) s = .next s :=
  if_pos (decide_eq_true hend)

/-- Before the end the loop takes one of the engine's steps and goes on from there (R154). -/
theorem hostRun_succ_of_step {len : Nat} {s u : State} (hend : ¬ s.params.progBase.val + len < s.pc.toNat)
    (hstep : step s = .next u) (fuel : Nat) : hostRun len (fuel + 1) s = hostRun len fuel u := by
  rw [hostRun, if_neg (by rwa [runEnded, decide_eq_true_iff]), hstep]

/-- Settles O50, by induction on the fuel: the loop from the next state has the same end, for a step keeps the parameters. -/
theorem hostRunStopsPastEnd : Obligations.HostRunStopsPastEnd := by
  intro len fuel
  induction fuel with
  | zero => exact fun s => ⟨s, 0, rfl, le_rfl, rfl, nofun, nofun⟩
  | succ fuel ih =>
    intro s
    by_cases hend : s.params.progBase.val + len < s.pc.toNat
    · exact ⟨s, 0, hostRun_succ_of_ended hend fuel, Nat.zero_le _, rfl, fun _ => hend, nofun⟩
    · obtain ⟨u, hstep, hparams⟩ := stepKeepsParameters.2 s
      obtain ⟨t, k, hhost, hk, hrun, hpast, hbefore⟩ := ih u
      rw [hparams] at hpast hbefore
      refine ⟨t, k + 1, (hostRun_succ_of_step hend hstep fuel).trans hhost, Nat.succ_le_succ hk,
        (core_run_succ hstep k).trans hrun, fun h => hpast (Nat.lt_of_succ_lt_succ h), fun j v hj hv => ?_⟩
      cases j with
      | zero =>
        obtain rfl : s = v := Host.Outcome.next.inj hv
        exact Nat.le_of_not_lt hend
      | succ j => exact hbefore j v (Nat.lt_of_succ_lt_succ hj) ((core_run_succ hstep j).symm.trans hv)

/-- Settles O4: the length is the first thing a launch tests. -/
theorem launchRefusesLongProgram : Obligations.LaunchRefusesLongProgram :=
  ⟨fun _ _ hlen => launchWith_of_tooLong hlen, fun _ hlen => launchWith_of_tooLong hlen⟩

/-- Settles O52: the refusal is that of an overlap, and the suggested parameters have none. -/
theorem launchRefusesFontOverlap : Obligations.LaunchRefusesFontOverlap := by
  refine ⟨fun p program hne hlen hbegin hend => ?_, fun program h => ?_⟩
  · exact launchWith_eq_programOverlapsFont_iff.2
      ⟨hlen, (overlapsFont_iff ..).2 ⟨List.length_pos_of_ne_nil hne, hbegin, hend⟩⟩
  · exact not_overlapsFont_suggested _ (launchWith_eq_programOverlapsFont_iff.1 h).2

end Sys2Proof.Machine
